-- ==== Sys2Proof/Config.lean ====
section
/-! DEFINITION. The implementation parameters of `spec/00_scope.md` rule R5 and the table
"Parameters left open, in one place" of `spec/92_eei_decisions.md`: what is admissible
for each, the behaviour switches as constants, and the open parameters as a record that a machine
carries beside its width. -/

namespace Sys2Proof.Config

/-- The admissible values of `VLEN`, the width of a Value in bits: the powers of two from 16 (R5, decision
D1). The width itself is an argument of the model: `Machine.State` carries it. -/
def vlenWf (vlen : Nat) : Bool := decide (16 ≤ vlen ∧ vlen = 2 ^ Nat.log2 vlen)

/-- `VLEN` on this hardware, in the reference configuration (R5, decision D1). -/
def referenceVlen : Nat := 64

/-- `PW`, the width of a Pointer in bits; R5 requires `PW = VLEN` (decision D2). -/
abbrev PW (vlen : Nat) : Nat := vlen

/-- `SHAMT_BITS`, how many bits of a shift amount are used: `log2(VLEN)` (R5, decision D11). -/
def shamtBits (vlen : Nat) : Nat := Nat.log2 vlen

/-- `HEAP_SIZE`, the number of heap cells (R5, R16; decision D5). -/
abbrev heapSize : Nat := 256

/-- What ADD, SUB and MUL do with a result that does not fit (R5, R126): this hardware has one value. -/
inductive ArithOverflow where
  | wrap
deriving DecidableEq, Repr

/-- `ARITH_OVERFLOW` (R5, decision D6). -/
def arithOverflow : ArithOverflow := .wrap

/-- How LSF and RSF treat an amount outside 0 to `VLEN - 1` (R5, R142): this hardware has one value. -/
inductive ShiftMode where
  | mask
deriving DecidableEq, Repr

/-- `SHIFT_MODE` (R5, decision D11). -/
def shiftMode : ShiftMode := .mask

/-- The parameters the spec leaves OPEN (R5, decision D4). A capacity is `none` where the
configuration leaves it unbounded, which R5 calls "a legal instantiation of every capacity parameter". -/
structure Params where
  /-- `VS_DEPTH`, the capacity of the value stack in entries. -/
  vsDepth   : Option Nat
  /-- `CS_DEPTH`, the capacity of the call stack in frames. -/
  csDepth   : Option Nat
  /-- `IMEM_DEPTH`, the capacity of the instruction memory in decoded instructions. -/
  imemDepth : Option Nat
  /-- `PROG_MAX`, the capacity of the program byte buffer in bytes. -/
  progMax   : Option Nat
  /-- Whether the command `LOAD_IMEM` exists (last row of the parameter table of D1 to D28; R218). -/
  hasLoadImem : Bool
deriving DecidableEq, Repr

/-- The reference configuration of R5, in which `spec/95_test_vectors.md` is computed. -/
def Params.reference : Params :=
  { vsDepth := some 256, csDepth := some 64, imemDepth := some 4096, progMax := some 8192,
    hasLoadImem := true }

/-- FREE VALUE: what the host reads from `DPOS` where the spec leaves it `any value`: outside `Decoding`,
after neither reset nor a decoder's failure (R19; `spec/93_implementation_defined.md` section 3). It is
applied to the register's stored content; nothing constrains it (log entry 5). -/
opaque freeDpos : Nat → Nat

/-- The counter `n` stands at the capacity: `VSP = VS_DEPTH` and its fellows (R97, R99, R70). -/
def full (cap : Option Nat) (n : Nat) : Bool := decide (cap = some n)

/-- `n` entries fit into the capacity. -/
def fits (cap : Option Nat) (n : Nat) : Bool :=
  match cap with
  | none => true
  | some c => decide (n ≤ c)

/-- The constraint column of R5's table (and its repetition in `92_eei_decisions.md`, where
`IMEM_DEPTH` is 1 and up). -/
def Params.wf (vlen : Nat) (p : Params) : Bool :=
  (match p.vsDepth with | none => true | some c => decide (2 ≤ c)) &&
  (match p.csDepth with | none => true | some c => decide (1 ≤ c)) &&
  (match p.imemDepth with | none => true | some c => decide (1 ≤ c ∧ c + 256 < 2 ^ PW vlen))

end Sys2Proof.Config
end

