-- ==== Sys2Proof/Word.lean ====
section
/-! DEFINITION. The three bit-vector types of `spec/00_scope.md` rule R6. -/

namespace Sys2Proof

/-- A byte: 8 bits, read as an unsigned number 0 to 255 (R6). -/
abbrev Byte := BitVec 8

/-- A Value of a machine with `VLEN = vlen`: that many bits read as a two's-complement signed integer (R5,
R6). `signed(v)` is `v.toInt`, `unsigned(v)` is `v.toNat`. -/
abbrev Value (vlen : Nat) := BitVec vlen

/-- A Pointer: `PW` bits read as an unsigned number, an index into the Instruction Sequence (R6, R11). -/
abbrev Pointer (vlen : Nat) := BitVec (Config.PW vlen)

end Sys2Proof
end

