-- ==== Sys2Proof/Syntax.lean ====
section
/-! DEFINITION. The 27 instructions (`spec/30_encoding.md` rule R66), each with the operand field of
its instruction-memory entry (`spec/10_state.md` rule R20). -/

namespace Sys2Proof

/-- The fields `opv` and `k` of an entry (R20): `some k` when `opv = 1`, `none` when `opv = 0`.
R20 calls `opv` "the presence of the option" and `k` "meaningful only when `opv = 1`". -/
abbrev Operand := Option Byte

/-- An instruction is the source's record of an opcode and an optional operand (R20). Every
constructor carries the operand field, because a directly loaded entry may pair any opcode with any
`opv` (R20, R103, R218); `Instr.wellFormed` says which pairings the decoder makes. -/
inductive Instr where
  /-- 0x00, R110 -/
  | noop  (o : Operand)
  /-- 0x01, R111 -/
  | push  (o : Operand)
  /-- 0x02, R112 -/
  | store (o : Operand)
  /-- 0x03, R113 -/
  | load  (o : Operand)
  /-- 0x10, R121 -/
  | add   (o : Operand)
  /-- 0x11, R122 -/
  | sub   (o : Operand)
  /-- 0x12, R123 -/
  | mul   (o : Operand)
  /-- 0x13, R124 -/
  | div   (o : Operand)
  /-- 0x14, R125 -/
  | mod   (o : Operand)
  /-- 0x18, R136 -/
  | and   (o : Operand)
  /-- 0x19, R137 -/
  | or    (o : Operand)
  /-- 0x1A, R138 -/
  | xor   (o : Operand)
  /-- 0x1B, R139 -/
  | not   (o : Operand)
  /-- 0x1C, R140 -/
  | lsf   (o : Operand)
  /-- 0x1D, R141 -/
  | rsf   (o : Operand)
  /-- 0x20, R151 -/
  | eq    (o : Operand)
  /-- 0x21, R152 -/
  | gt    (o : Operand)
  /-- 0x22, R153 -/
  | lt    (o : Operand)
  /-- 0x23, R154 -/
  | gte   (o : Operand)
  /-- 0x24, R155 -/
  | lte   (o : Operand)
  /-- 0x28, R160 -/
  | proc  (o : Operand)
  /-- 0x29, R161 -/
  | call  (o : Operand)
  /-- 0x2A, R162 -/
  | ret   (o : Operand)
  /-- 0x2C, R163 -/
  | jmp   (o : Operand)
  /-- 0x2D, R164 -/
  | jif   (o : Operand)
  /-- 0xFE, R175 -/
  | dbg   (o : Operand)
  /-- 0xFF, R176 -/
  | exit  (o : Operand)
deriving DecidableEq, Repr

end Sys2Proof
end

