-- ==== Sys2Proof/WellFormed.lean ====
section
/-! DEFINITION. Which pairings of an opcode with its operand field are those the encoding admits
(`spec/30_encoding.md` rules R61, R64; `spec/10_state.md` rule R20: "opv = 1 exactly when op is
operand-bearing"). -/

namespace Sys2Proof

/-- `opv = Bearing(op)`: format `K` carries an operand byte, of any value, and format `N` carries none
(R61, R64). -/
def Instr.wellFormed : Instr → Bool
  | .push o | .store o | .load o | .proc o | .call o | .jmp o | .jif o | .dbg o => o.isSome
  | .noop o | .add o | .sub o | .mul o | .div o | .mod o | .and o | .or o | .xor o | .not o
  | .lsf o | .rsf o | .eq o | .gt o | .lt o | .gte o | .lte o | .ret o | .exit o => o.isNone

end Sys2Proof
end

