-- ==== Sys2Proof/Decode.lean ====
section
/-! DEFINITION. The opcode map, the decoder and the encoder of `spec/30_encoding.md` (rules R60 to
R78). The decoder here reads one instruction from a list of bytes; the decoder's state machine, which
walks the program buffer with it, is `Machine.decodeStep`. -/

namespace Sys2Proof

/-- One row of the opcode map (R66): the opcode byte and the instruction it selects, still to be given
its operand field. -/
structure OpcodeRow where
  byte : Byte
  make : Operand → Instr

/-- The complete opcode map, in the order of the byte values (R66). -/
def opcodeTable : List OpcodeRow :=
  [⟨0x00, .noop⟩, ⟨0x01, .push⟩, ⟨0x02, .store⟩, ⟨0x03, .load⟩] ++
  [⟨0x10, .add⟩, ⟨0x11, .sub⟩, ⟨0x12, .mul⟩, ⟨0x13, .div⟩, ⟨0x14, .mod⟩] ++
  [⟨0x18, .and⟩, ⟨0x19, .or⟩, ⟨0x1A, .xor⟩, ⟨0x1B, .not⟩, ⟨0x1C, .lsf⟩, ⟨0x1D, .rsf⟩] ++
  [⟨0x20, .eq⟩, ⟨0x21, .gt⟩, ⟨0x22, .lt⟩, ⟨0x23, .gte⟩, ⟨0x24, .lte⟩] ++
  [⟨0x28, .proc⟩, ⟨0x29, .call⟩, ⟨0x2A, .ret⟩, ⟨0x2C, .jmp⟩, ⟨0x2D, .jif⟩] ++
  [⟨0xFE, .dbg⟩, ⟨0xFF, .exit⟩]

/-- The instruction an opcode byte selects, if any: all eight bits are compared (R61, R94). -/
def lookup (b : Byte) : Option (Operand → Instr) :=
  (opcodeTable.find? (fun r => decide (r.byte = b))).map (·.make)

/-- `IsOpcode(b)` (R66). -/
def isOpcode (b : Byte) : Bool := (lookup b).isSome

/-- `Bearing(b)`: the eight operand-bearing opcode bytes (R64). -/
def bearing (b : Byte) : Bool :=
  decide (b ∈ ([0x01, 0x02, 0x03, 0x28, 0x29, 0x2C, 0x2D, 0xFE] : List Byte))

/-- Why no instruction can be read at a position, by name. -/
inductive DecodeError where
  /-- No byte is left: the buffer is exhausted (R70, R71). -/
  | endOfProgram
  /-- The byte is not in the opcode map (R67, R72). -/
  | invalidOpcode (b : Byte)
  /-- The operand-bearing opcode byte is the last byte (R73). -/
  | truncatedOperand (b : Byte)
deriving DecidableEq, Repr

/-- Read one instruction: the opcode byte alone decides whether a second byte is its operand (R62,
R70), and that second byte is never looked up in the map (R68). Answers the instruction and the bytes
after it. -/
def decode : List Byte → Except DecodeError (Instr × List Byte)
  | [] => .error .endOfProgram
  | b :: rest =>
    match lookup b with
    | none => .error (.invalidOpcode b)
    | some make =>
      if bearing b then
        match rest with
        | [] => .error (.truncatedOperand b)
        | k :: rest' => .ok (make (some k), rest')
      else .ok (make none, rest)

/-- The opcode byte of an instruction, the field `op` of its entry (R20, R66). -/
def Instr.opcodeByte : Instr → Byte
  | .noop _ => 0x00
  | .push _ => 0x01
  | .store _ => 0x02
  | .load _ => 0x03
  | .add _ => 0x10
  | .sub _ => 0x11
  | .mul _ => 0x12
  | .div _ => 0x13
  | .mod _ => 0x14
  | .and _ => 0x18
  | .or _ => 0x19
  | .xor _ => 0x1A
  | .not _ => 0x1B
  | .lsf _ => 0x1C
  | .rsf _ => 0x1D
  | .eq _ => 0x20
  | .gt _ => 0x21
  | .lt _ => 0x22
  | .gte _ => 0x23
  | .lte _ => 0x24
  | .proc _ => 0x28
  | .call _ => 0x29
  | .ret _ => 0x2A
  | .jmp _ => 0x2C
  | .jif _ => 0x2D
  | .dbg _ => 0xFE
  | .exit _ => 0xFF

/-- The operand field of an instruction, the fields `opv` and `k` of its entry (R20). -/
def Instr.operand : Instr → Operand
  | .noop o | .push o | .store o | .load o | .add o | .sub o | .mul o | .div o | .mod o
  | .and o | .or o | .xor o | .not o | .lsf o | .rsf o | .eq o | .gt o | .lt o | .gte o | .lte o
  | .proc o | .call o | .ret o | .jmp o | .jif o | .dbg o | .exit o => o

/-- `Encode`: the opcode byte, then the operand byte when one is present; presence decides, not
`Bearing` (R77). -/
def encode (i : Instr) : List Byte := i.opcodeByte :: i.operand.toList

/-- `EncodeSeq`: the encodings one after another with nothing between them (R60, R77). -/
def encodeSeq (l : List Instr) : List Byte := l.flatMap encode

/-- The bytes of an instruction whose bits are `w`, numbered as `spec/opcode_table.json` numbers them:
the first byte is bits 7 to 0 and lies at the lower offset, the second is bits 15 to 8 (R43, R61);
every bit at or above `nbits` is 0. Two bytes are the longest instruction (R60). -/
def tableWordBytes (nbits w : Nat) : List Byte :=
  [BitVec.ofNat 8 (w % 2 ^ nbits), BitVec.ofNat 8 (w % 2 ^ nbits / 256)]

/-- The instruction the decoder reads from a table word. -/
def decodeTableWord (nbits w : Nat) : Option Instr :=
  match decode (tableWordBytes nbits w) with
  | .ok (i, _) => some i
  | .error _ => none

end Sys2Proof
end

