-- ==== Sys2Proof/Machine/State.lean ====
section
/-! DEFINITION. The machine's state as plain data (`spec/10_state.md` rules R10 to R30), its value
after reset (R29, R210), and the reasons a step can stop. -/

namespace Sys2Proof.Machine

/-- `STATUS` (CR0), with the spec's six values (R22). -/
inductive Status where
  | idle | decoding | ready | running | done | fault
deriving DecidableEq, Repr

/-- The ten error kinds (R180). `ERR_KIND = 0`, no error, is `none` of `Option ErrKind`. -/
inductive ErrKind where
  | invalidOpcode | truncatedOperand | emptyStack | emptyOperand | emptyCallStack
  | notFoundAddressInStore | divideByZero | stackOverflow | callStackOverflow | programTooLong
deriving DecidableEq, Repr

/-- One debug event: the index of the DBG instruction and the Value it popped (R27). -/
structure DebugEvent (vlen : Nat) where
  ip    : Pointer vlen
  value : Value vlen
deriving DecidableEq, Repr

/-- The four host commands (R212). A directly loaded entry is an `Instr`, so an `op` byte outside the
opcode map cannot be expressed (R20, R218). -/
inductive HostCommand where
  | loadProgram (bytes : List Byte)
  | decode
  | loadImem (entries : List Instr)
  | run
deriving DecidableEq, Repr

/-- What the world outside can do to the machine: the reset input (R210) and the commands (R212). -/
inductive HostEvent where
  | reset
  | command (c : HostCommand)
deriving DecidableEq, Repr

/-- One slot of the outside world's schedule: nothing arrives and the machine takes its own step, or
an event arrives, between the machine's steps (R211). -/
inductive HostSlot where
  | quiet
  | event (e : HostEvent)
deriving DecidableEq, Repr

/-- The registers the host can read, by name (R26, CR0 to CR11). -/
inductive CtrlReg where
  | status | errKind | errIpValid | errIp | errInfo | ip | vsp | csp | ilen | imemValid | plen | dpos
deriving DecidableEq, Repr

/-- The heap's stored cells as (address, Value) pairs in canonical form: addresses strictly rising,
every one below 256. A listed address has `stored = 1`; an unlisted one has `stored = 0`, and its
`value` bits are no architectural value (R16). -/
abbrev Memory (vlen : Nat) := List (Nat × Value vlen)

/-- Everything the spec gives a machine with `VLEN = vlen` (`spec/10_state.md` section 1), and two fields
that are the model's own: `params` and `host`. -/
structure StateAt (vlen : Nat) where
  /-- `ip` (CR5), the index of the instruction about to execute (R11). -/
  ip         : Pointer vlen
  /-- The live value-stack entries `VS[VSP-1]` down to `VS[0]`, TOP FIRST; `VSP` (CR6) is the length
  (R12, R13). -/
  vs         : List (Value vlen)
  /-- The live call frames `CS[CSP-1]` down to `CS[0]`, NEWEST FIRST; `CSP` (CR7) is the length
  (R14, R15). -/
  cs         : List (Pointer vlen)
  /-- The heap store (R16). -/
  heap       : Memory vlen
  /-- The valid program bytes `PROG[0 .. PLEN-1]`; `PLEN` (CR10) is the length (R18). -/
  prog       : List Byte
  /-- `DPOS` (CR11), the decoder's position (R19). -/
  dpos       : Nat
  /-- The Instruction Sequence `IMEM[0 .. ILEN-1]`; `ILEN` (CR8) is the length (R20, R21). -/
  imem       : List Instr
  /-- `IMEM_VALID` (CR9) (R21). -/
  imemValid  : Bool
  /-- `STATUS` (CR0) (R22). -/
  status     : Status
  /-- `ERR_KIND` (CR1) (R23). -/
  errKind    : Option ErrKind
  /-- `ERR_IP_VALID` (CR2) (R24). -/
  errIpValid : Bool
  /-- `ERR_IP` (CR3) (R24). -/
  errIp      : Pointer vlen
  /-- `ERR_INFO` (CR4) (R25). -/
  errInfo    : Value vlen
  /-- `DBG_LOG`, this run's debug events, oldest first (R27). -/
  dbgLog     : List (DebugEvent vlen)
  /-- THE MODEL'S OWN: the open parameters of this machine (R5); no step writes them. -/
  params     : Config.Params
  /-- THE MODEL'S OWN: what the outside world does next, one slot a step; the empty list is quiet for
  ever (R212 to R214). -/
  host       : List HostSlot
deriving DecidableEq, Repr

/-- The machine: its width `VLEN`, which R5 has a model take as an argument, and its state at that width.
`vlen` is the model's own, like `params`; no step changes it. -/
structure State where
  /-- `VLEN`, and with it `PW` (R5). -/
  vlen : Nat
  /-- Everything else. -/
  body : StateAt vlen
deriving DecidableEq, Repr

/-- Why a step stops the model. There is NO reason: every error of this machine is an entry into
`STATUS = Fault` that the spec describes (R75, R192), hence a next state, and rule R202 says that
nothing else makes the machine fail. Nobody raises a `Fault`; safe, since nothing is hidden by one. -/
inductive Fault where
deriving DecidableEq, Repr

/-- Why the model gives no meaning. -/
inductive Refusal where
  /-- Raised by an arm of `exec` whose instruction has no meaning yet; no arm of this model does. Safe:
  it could only make claims unprovable. -/
  | notModelled (mnemonic : String)
deriving DecidableEq, Repr

/-- The state after reset (R29, R210) of a machine with the given open parameters and the given outside
world. -/
def StateAt.initial {vlen : Nat} (p : Config.Params) (h : List HostSlot) : StateAt vlen :=
  { ip := 0, vs := [], cs := [], heap := [], prog := [], dpos := 0, imem := [], imemValid := false,
    status := .idle, errKind := none, errIpValid := false, errIp := 0, errInfo := 0, dbgLog := [],
    params := p, host := h }

/-- The state right after reset (R29, R210), in the reference configuration of R5 (log entry 2) and
with a quiet outside world (log entry 3). -/
def State.reset : State :=
  { vlen := Config.referenceVlen, body := StateAt.initial Config.Params.reference [] }

end Sys2Proof.Machine
end

