-- ==== Sys2Proof/Machine/Operands.lean ====
section
/-! DEFINITION. The conversions of `spec/00_scope.md` rule R6 and the operand of an instruction
(`spec/30_encoding.md` rule R63). -/

namespace Sys2Proof.Machine

variable {w : Nat}

/-- `wrap(z)`: the string of `w` bits whose unsigned reading is `z mod 2^w` (R6). -/
def wrap (z : Int) : BitVec w := BitVec.ofInt w z

/-- `zext_VLEN(b)` for a byte (R6, R63). -/
def zextByte (b : Byte) : Value w := BitVec.setWidth w b

/-- `toPointer(v)`: the Pointer with the same bits, so a negative Value is a very large index (R6,
decision D2). -/
def toPointer (v : Value w) : Pointer w := BitVec.setWidth (Config.PW w) v

/-- The cell the heap address decoder selects: cell number `k` for the operand byte `k` (R41). -/
def heapAddress (k : Byte) : Nat := k.toNat

end Sys2Proof.Machine
end

