-- ==== Sys2Proof/Machine/Flags.lean ====
section
/-! DEFINITION. The machine has NO flags and no condition codes (`spec/10_state.md` rule R17): what
stands here is what it has instead, the Values a comparison pushes and the test JIF makes. -/

namespace Sys2Proof.Machine

/-- What a comparison pushes: exactly 1 or exactly 0 (R150). -/
def truthValue {w : Nat} (p : Bool) : BitVec w := if p then BitVec.ofNat w 1 else BitVec.ofNat w 0

/-- JIF's test of a popped condition: `signed(c) = 0`, that is, the condition is false (R164). -/
def conditionIsZero {w : Nat} (c : Value w) : Bool := decide (c.toInt = 0)

end Sys2Proof.Machine
end

