-- ==== Sys2Proof/Machine/Alu.lean ====
section
/-! DEFINITION. The ALU: each operation is a function of its operands alone
(`spec/42_arithmetic.md` rule R129), written for every width `w`, the machine's `VLEN` (R5,
decision D1).
`a` is the second-popped, left-hand operand, `b` the first-popped, right-hand one (R120). -/

namespace Sys2Proof.Machine.Alu

variable {w : Nat}

/-- What becomes of an exact result that need not fit: its low `w` bits are kept (R126). -/
def narrow (z : Int) : BitVec w :=
  match Config.arithOverflow with
  | .wrap => wrap z

/-- R121. -/
def add (a b : BitVec w) : BitVec w := narrow (a.toInt + b.toInt)

/-- R122: second minus first. -/
def sub (a b : BitVec w) : BitVec w := narrow (a.toInt - b.toInt)

/-- R123: the low bits of the exact product. -/
def mul (a b : BitVec w) : BitVec w := narrow (a.toInt * b.toInt)

/-- The test of R124, R125 and R128 on the divisor alone. -/
def divisorIsZero (b : BitVec w) : Bool := decide (b.toInt = 0)

/-- R124 for a divisor that is not 0: the quotient rounded toward zero (`tdiv`). -/
def div (a b : BitVec w) : BitVec w := wrap (Int.tdiv a.toInt b.toInt)

/-- R125 for a divisor that is not 0: the remainder of `div`. -/
def mod (a b : BitVec w) : BitVec w := wrap (a.toInt - Int.tdiv a.toInt b.toInt * b.toInt)

/-- R136. -/
def and (a b : BitVec w) : BitVec w := a &&& b

/-- R137. -/
def or (a b : BitVec w) : BitVec w := a ||| b

/-- R138. -/
def xor (a b : BitVec w) : BitVec w := a ^^^ b

/-- R139: the complement of every bit. -/
def not (a : BitVec w) : BitVec w := ~~~a

/-- The shift amount: `unsigned(b) mod VLEN`, the low `SHAMT_BITS` bits of `b` (R142). -/
def shiftAmount (b : BitVec w) : Nat :=
  match Config.shiftMode with
  | .mask => b.toNat % w

/-- R140: shifted left, zeros enter at bit 0. -/
def lsf (a b : BitVec w) : BitVec w := wrap ((a.toNat : Int) * 2 ^ shiftAmount b)

/-- R141: the floor of `signed(a) / 2^n` (`Int`'s division rounds down for a positive divisor). -/
def rsf (a b : BitVec w) : BitVec w := wrap (a.toInt / 2 ^ shiftAmount b)

/-- R151. -/
def eq (a b : BitVec w) : BitVec w := truthValue (decide (a = b))

/-- R152. -/
def gt (a b : BitVec w) : BitVec w := truthValue (decide (a.toInt > b.toInt))

/-- R153. -/
def lt (a b : BitVec w) : BitVec w := truthValue (decide (a.toInt < b.toInt))

/-- R154. -/
def gte (a b : BitVec w) : BitVec w := truthValue (decide (a.toInt ≥ b.toInt))

/-- R155. -/
def lte (a b : BitVec w) : BitVec w := truthValue (decide (a.toInt ≤ b.toInt))

end Sys2Proof.Machine.Alu
end

