-- ==== Sys2Proof/Machine/Heap.lean ====
section
/-! DEFINITION. Reading and writing heap cells (`spec/20_memory.md` rules R41 to R47) over the
canonical list of stored cells. -/

namespace Sys2Proof.Machine

variable {w : Nat}

/-- The canonical form: addresses strictly rising, every one a heap cell (R16). A listed cell is a
stored one, so no listed pair equals what an unlisted address reads as. -/
abbrev Memory.wf (m : Memory w) : Prop :=
  m.Pairwise (fun c d => c.1 < d.1) ∧ ∀ c ∈ m, c.1 < Config.heapSize

/-- The Value of the cell at an address, `none` where `stored = 0` (R16, R46). -/
def Memory.read : Memory w → Nat → Option (Value w)
  | [], _ => none
  | (k, v) :: m, a => if k = a then some v else Memory.read m a

/-- Set the cell at an address to a Value and mark it stored (R47). -/
def Memory.write : Memory w → Nat → Value w → Memory w
  | [], a, v => [(a, v)]
  | (k, u) :: m, a, v =>
    if a < k then (a, v) :: (k, u) :: m
    else if a = k then (a, v) :: m
    else (k, u) :: Memory.write m a v

end Sys2Proof.Machine
end

