-- ==== Sys2Proof/Machine/Ops.lean ====
section
/-! DEFINITION. The primitives the instruction rules are written with (`spec/00_scope.md` rule R7,
`spec/40_dispatch.md` rules R93 to R102), the entry into a run-time error (`spec/60_exceptions.md`
rule R192), and the shapes the instruction families share. There is no return from an error (R195). -/

namespace Sys2Proof.Machine

variable {w : Nat}

/-- `VSP` (R13). -/
def StateAt.vsp (s : StateAt w) : Nat := s.vs.length

/-- `CSP` (R15). -/
def StateAt.csp (s : StateAt w) : Nat := s.cs.length

/-- `ILEN` (R21). -/
def StateAt.ilen (s : StateAt w) : Nat := s.imem.length

/-- `PLEN` (R18). -/
def StateAt.plen (s : StateAt w) : Nat := s.prog.length

/-- The run-time errors with their payloads (R180). -/
inductive RunError where
  | emptyStack | emptyOperand | emptyCallStack
  | notFoundAddressInStore (a : Byte)
  | divideByZero | stackOverflow | callStackOverflow
deriving DecidableEq, Repr

/-- The error kind (R180). -/
def RunError.kind : RunError → ErrKind
  | .emptyStack => .emptyStack
  | .emptyOperand => .emptyOperand
  | .emptyCallStack => .emptyCallStack
  | .notFoundAddressInStore _ => .notFoundAddressInStore
  | .divideByZero => .divideByZero
  | .stackOverflow => .stackOverflow
  | .callStackOverflow => .callStackOverflow

/-- The payload for `ERR_INFO`: the heap address, 0 for every kind without one (R25, R180). -/
def RunError.info : RunError → Value w
  | .notFoundAddressInStore a => zextByte a
  | .emptyStack | .emptyOperand | .emptyCallStack | .divideByZero | .stackOverflow
  | .callStackOverflow => 0

/-- `RunFault(E, info)`: the whole entry into a run-time error (R192). -/
def runFault (e : RunError) (s : StateAt w) : StateAt w :=
  { s with errKind := some e.kind, errIpValid := true, errIp := s.ip, errInfo := e.info,
           status := .fault }

/-- What an instruction's lines answer: the state after all of them, or the first error raised (R102). -/
abbrev Effect (w : Nat) := Except RunError (StateAt w)

/-- One instruction is one atomic step: if a line raised, every assignment the earlier lines made is
discarded and the error is entered from the state before the instruction (R91, R101, R192). -/
def finish (s : StateAt w) : Effect w → Host.Outcome State Fault Refusal
  | .ok t => .next ⟨w, t⟩
  | .error e => .next ⟨w, runFault e s⟩

/-- `ip <- ip + 1` (R95). -/
def fallThrough (s : StateAt w) : StateAt w := { s with ip := s.ip + 1 }

/-- `ip <- target` (R95). -/
def redirect (target : Pointer w) (s : StateAt w) : StateAt w := { s with ip := target }

/-- `halt`: `ip` is left unchanged (R93). -/
def halt (s : StateAt w) : StateAt w := { s with status := .done }

/-- `Operand()` on the operand field of the fetched entry: the byte `k` (R96). Its Value is
`zextByte k` (R63). -/
def operand : Operand → Except RunError Byte
  | none => .error .emptyOperand
  | some k => .ok k

/-- `Push(v)` (R97). -/
def push (v : Value w) (s : StateAt w) : Effect w :=
  if Config.full s.params.vsDepth s.vsp then .error .stackOverflow
  else .ok { s with vs := v :: s.vs }

/-- `Pop()` (R98). -/
def pop (s : StateAt w) : Except RunError (Value w × StateAt w) :=
  match s.vs with
  | [] => .error .emptyStack
  | v :: rest => .ok (v, { s with vs := rest })

/-- `CSPush(p)` (R99). -/
def csPush (p : Pointer w) (s : StateAt w) : Effect w :=
  if Config.full s.params.csDepth s.csp then .error .callStackOverflow
  else .ok { s with cs := p :: s.cs }

/-- `CSPop()` (R100). -/
def csPop (s : StateAt w) : Except RunError (Pointer w × StateAt w) :=
  match s.cs with
  | [] => .error .emptyCallStack
  | p :: rest => .ok (p, { s with cs := rest })

/-- `HeapRead(a)` (R46). -/
def heapRead (k : Byte) (s : StateAt w) : Except RunError (Value w) :=
  match Memory.read s.heap (heapAddress k) with
  | none => .error (.notFoundAddressInStore k)
  | some v => .ok v

/-- `HeapWrite(a, v)`, which cannot fail (R47). -/
def heapWrite (k : Byte) (v : Value w) (s : StateAt w) : StateAt w :=
  { s with heap := Memory.write s.heap (heapAddress k) v }

/-- `DebugEmit(v)`: the event `(ip, v)` (R27). -/
def debugEmit (v : Value w) (s : StateAt w) : StateAt w := { s with dbgLog := s.dbgLog ++ [⟨s.ip, v⟩] }

/-- The two-operand convention: pop `first`, pop `second`, push `second <op> first`, fall through
(R120). The operation may raise, after both pops and before the push (R102). -/
def binary (op : Value w → Value w → Except RunError (Value w)) (s : StateAt w) : Effect w := do
  let (b, s) ← pop s
  let (a, s) ← pop s
  let v ← op a b
  let s ← push v s
  .ok (fallThrough s)

/-- The two-operand instruction of a total ALU operation (R129). -/
def binaryTotal (op : Value w → Value w → Value w) (s : StateAt w) : Effect w :=
  binary (fun a b => .ok (op a b)) s

/-- The two-operand instruction of an ALU operation that is partial at divisor 0 (R128, R129). -/
def binaryDivide (op : Value w → Value w → Value w) (s : StateAt w) : Effect w :=
  binary (fun a b => if Alu.divisorIsZero b then .error .divideByZero else .ok (op a b)) s

end Sys2Proof.Machine
end

