-- ==== Sys2Proof/Machine/Arith.lean ====
section
/-! DEFINITION. ADD, SUB, MUL, DIV, MOD (`spec/42_arithmetic.md`). None uses its operand field (R103). -/

namespace Sys2Proof.Machine

/-- R121. -/
def execAdd (_o : Operand) (s : State) : Host.Outcome State Fault Refusal :=
  finish s.body (binaryTotal Alu.add s.body)

/-- R122. -/
def execSub (_o : Operand) (s : State) : Host.Outcome State Fault Refusal :=
  finish s.body (binaryTotal Alu.sub s.body)

/-- R123. -/
def execMul (_o : Operand) (s : State) : Host.Outcome State Fault Refusal :=
  finish s.body (binaryTotal Alu.mul s.body)

/-- R124. -/
def execDiv (_o : Operand) (s : State) : Host.Outcome State Fault Refusal :=
  finish s.body (binaryDivide Alu.div s.body)

/-- R125. -/
def execMod (_o : Operand) (s : State) : Host.Outcome State Fault Refusal :=
  finish s.body (binaryDivide Alu.mod s.body)

end Sys2Proof.Machine
end

