-- ==== Sys2Proof/Machine/Bitwise.lean ====
section
/-! DEFINITION. AND, OR, XOR, NOT, LSF, RSF (`spec/43_bitwise.md`). None uses its operand field (R103). -/

namespace Sys2Proof.Machine

/-- R136. -/
def execAnd (_o : Operand) (s : State) : Host.Outcome State Fault Refusal :=
  finish s.body (binaryTotal Alu.and s.body)

/-- R137. -/
def execOr (_o : Operand) (s : State) : Host.Outcome State Fault Refusal :=
  finish s.body (binaryTotal Alu.or s.body)

/-- R138. -/
def execXor (_o : Operand) (s : State) : Host.Outcome State Fault Refusal :=
  finish s.body (binaryTotal Alu.xor s.body)

/-- R139, the one-operand instruction: pops one Value and pushes one. -/
def execNot (_o : Operand) (s : State) : Host.Outcome State Fault Refusal :=
  finish s.body do
    let (a, t) ← pop s.body
    let t ← push (Alu.not a) t
    .ok (fallThrough t)

/-- R140. -/
def execLsf (_o : Operand) (s : State) : Host.Outcome State Fault Refusal :=
  finish s.body (binaryTotal Alu.lsf s.body)

/-- R141. -/
def execRsf (_o : Operand) (s : State) : Host.Outcome State Fault Refusal :=
  finish s.body (binaryTotal Alu.rsf s.body)

end Sys2Proof.Machine
end

