-- ==== Sys2Proof/Machine/Compare.lean ====
section
/-! DEFINITION. EQ, GT, LT, GTE, LTE (`spec/44_compare.md`). None uses its operand field (R103). -/

namespace Sys2Proof.Machine

/-- R151. -/
def execEq (_o : Operand) (s : State) : Host.Outcome State Fault Refusal :=
  finish s.body (binaryTotal Alu.eq s.body)

/-- R152. -/
def execGt (_o : Operand) (s : State) : Host.Outcome State Fault Refusal :=
  finish s.body (binaryTotal Alu.gt s.body)

/-- R153. -/
def execLt (_o : Operand) (s : State) : Host.Outcome State Fault Refusal :=
  finish s.body (binaryTotal Alu.lt s.body)

/-- R154. -/
def execGte (_o : Operand) (s : State) : Host.Outcome State Fault Refusal :=
  finish s.body (binaryTotal Alu.gte s.body)

/-- R155. -/
def execLte (_o : Operand) (s : State) : Host.Outcome State Fault Refusal :=
  finish s.body (binaryTotal Alu.lte s.body)

end Sys2Proof.Machine
end

