-- ==== Sys2Proof/Machine/Control.lean ====
section
/-! DEFINITION. PROC, CALL, RET, JMP, JIF (`spec/45_control.md`). Every pointer is an instruction
index (`spec/90_conflicts.md` C1), and every target is legal (R165). -/

namespace Sys2Proof.Machine

/-- R160. -/
def execProc (o : Operand) (s : State) : Host.Outcome State Fault Refusal :=
  finish s.body do
    let n ← operand o
    .ok (redirect (s.body.ip + toPointer (zextByte n) + 1) s.body)

/-- R161. -/
def execCall (o : Operand) (s : State) : Host.Outcome State Fault Refusal :=
  finish s.body do
    let n ← operand o
    let t ← csPush (s.body.ip + 1) s.body
    .ok (redirect (toPointer (zextByte n) + 1) t)

/-- R162. The operand field is not used (R103). -/
def execRet (_o : Operand) (s : State) : Host.Outcome State Fault Refusal :=
  finish s.body do
    let (p, t) ← csPop s.body
    .ok (redirect p t)

/-- R163. -/
def execJmp (o : Operand) (s : State) : Host.Outcome State Fault Refusal :=
  finish s.body do
    let n ← operand o
    .ok (redirect (toPointer (zextByte n)) s.body)

/-- R164: both Values are popped whether or not the branch is taken (`spec/90_conflicts.md` C3), and
the operand byte is not used (R65). -/
def execJif (_o : Operand) (s : State) : Host.Outcome State Fault Refusal :=
  finish s.body do
    let (c, t) ← pop s.body
    let (target, t) ← pop t
    .ok (if conditionIsZero c then redirect (toPointer target) t else fallThrough t)

end Sys2Proof.Machine
end

