-- ==== Sys2Proof/Machine/StackHeap.lean ====
section
/-! DEFINITION. NOOP, PUSH, STORE, LOAD (`spec/41_stack_heap.md`). -/

namespace Sys2Proof.Machine

/-- R110. The operand field is not used (R103). -/
def execNoop (_o : Operand) (s : State) : Host.Outcome State Fault Refusal :=
  finish s.body (.ok (fallThrough s.body))

/-- R111. -/
def execPush (o : Operand) (s : State) : Host.Outcome State Fault Refusal :=
  finish s.body do
    let k ← operand o
    let t ← push (zextByte k) s.body
    .ok (fallThrough t)

/-- R112. -/
def execStore (o : Operand) (s : State) : Host.Outcome State Fault Refusal :=
  finish s.body do
    let k ← operand o
    let (v, t) ← pop s.body
    .ok (fallThrough (heapWrite k v t))

/-- R113. -/
def execLoad (o : Operand) (s : State) : Host.Outcome State Fault Refusal :=
  finish s.body do
    let k ← operand o
    let v ← heapRead k s.body
    let t ← push v s.body
    .ok (fallThrough t)

end Sys2Proof.Machine
end

