-- ==== Sys2Proof/Machine/System.lean ====
section
/-! DEFINITION. DBG, EXIT (`spec/46_system.md`). -/

namespace Sys2Proof.Machine

/-- R175. The operand byte is not used (R65). -/
def execDbg (_o : Operand) (s : State) : Host.Outcome State Fault Refusal :=
  finish s.body do
    let (v, t) ← pop s.body
    .ok (fallThrough (debugEmit v t))

/-- R176. The operand field is not used (R103). -/
def execExit (_o : Operand) (s : State) : Host.Outcome State Fault Refusal :=
  finish s.body (.ok (halt s.body))

end Sys2Proof.Machine
end

