-- ==== Sys2Proof/Machine/Dispatch.lean ====
section
/-! DEFINITION. Dispatch: one arm per instruction (`spec/40_dispatch.md` rule R94). -/

namespace Sys2Proof.Machine

def exec (i : Instr) (s : State) : Host.Outcome State Fault Refusal :=
  match i with
  | .noop o => Sys2Proof.Machine.execNoop o s
  | .push o => Sys2Proof.Machine.execPush o s
  | .store o => Sys2Proof.Machine.execStore o s
  | .load o => Sys2Proof.Machine.execLoad o s
  | .add o => Sys2Proof.Machine.execAdd o s
  | .sub o => Sys2Proof.Machine.execSub o s
  | .mul o => Sys2Proof.Machine.execMul o s
  | .div o => Sys2Proof.Machine.execDiv o s
  | .mod o => Sys2Proof.Machine.execMod o s
  | .and o => Sys2Proof.Machine.execAnd o s
  | .or o => Sys2Proof.Machine.execOr o s
  | .xor o => Sys2Proof.Machine.execXor o s
  | .not o => Sys2Proof.Machine.execNot o s
  | .lsf o => Sys2Proof.Machine.execLsf o s
  | .rsf o => Sys2Proof.Machine.execRsf o s
  | .eq o => Sys2Proof.Machine.execEq o s
  | .gt o => Sys2Proof.Machine.execGt o s
  | .lt o => Sys2Proof.Machine.execLt o s
  | .gte o => Sys2Proof.Machine.execGte o s
  | .lte o => Sys2Proof.Machine.execLte o s
  | .proc o => Sys2Proof.Machine.execProc o s
  | .call o => Sys2Proof.Machine.execCall o s
  | .ret o => Sys2Proof.Machine.execRet o s
  | .jmp o => Sys2Proof.Machine.execJmp o s
  | .jif o => Sys2Proof.Machine.execJif o s
  | .dbg o => Sys2Proof.Machine.execDbg o s
  | .exit o => Sys2Proof.Machine.execExit o s

end Sys2Proof.Machine
end

