-- ==== Sys2Proof/Machine/Engine.lean ====
section
/-! DEFINITION. The two activities of the machine: the decoder's state machine
(`spec/30_encoding.md` rules R69 to R75) and the fetch-execute loop (`spec/40_dispatch.md` rules R90 to
R94), and which of them a step is (`spec/70_reset_and_hazards.md` rule R214). -/

namespace Sys2Proof.Machine

variable {w : Nat}

/-- `DecodeFault(kind, info)` (R75): `DPOS` keeps the offset of the offending opcode byte. -/
def decodeFault (kind : ErrKind) (info : Byte) (s : StateAt w) : StateAt w :=
  { s with errKind := some kind, errIpValid := false, errIp := 0, errInfo := zextByte info,
           imem := [], imemValid := false, status := .fault }

/-- `DecodeStep` (R70), its three failure tests in the order of R193. `decode` reads the bytes of
`PROG` from `DPOS` on and none at or beyond `PLEN` (R73). -/
def decodeStep (s : StateAt w) : StateAt w :=
  match decode (s.prog.drop s.dpos) with
  | .error .endOfProgram => { s with imemValid := true, status := .ready }
  | .error (.invalidOpcode b) => decodeFault .invalidOpcode b s
  | .error (.truncatedOperand b) => decodeFault .truncatedOperand b s
  | .ok (i, _) =>
    if Config.full s.params.imemDepth s.ilen then decodeFault .programTooLong 0 s
    else { s with imem := s.imem ++ [i], dpos := s.dpos + (encode i).length }

/-- The entry at the instruction pointer, `none` where `ip >= ILEN` (R92). -/
def fetch (s : StateAt w) : Option Instr := s.imem[s.ip.toNat]?

/-- `ExecStep` (R92): running past the end is success and changes nothing else. -/
def execStep (s : StateAt w) : Host.Outcome State Fault Refusal :=
  match fetch s with
  | none => .next ⟨w, { s with status := .done }⟩
  | some i => exec i ⟨w, s⟩

/-- The machine's own step: the decoder works only in `Decoding` and the engine only in `Running`
(R50, R90); in every other state the machine does nothing until the host commands it (R200). -/
def machineStep (s : StateAt w) : Host.Outcome State Fault Refusal :=
  match s.status with
  | .decoding => .next ⟨w, decodeStep s⟩
  | .running => execStep s
  | .idle | .ready | .done | .fault => .next ⟨w, s⟩

/-- The sequence `l` with the entry at index `n` replaced by `i`, filled up with NOOPs where it is
shorter than `n` (for `State.withFetchWord`). -/
def placeAt (n : Nat) (i : Instr) (l : List Instr) : List Instr :=
  l.take n ++ List.replicate (n - l.length) (.noop none) ++ i :: l.drop (n + 1)

end Sys2Proof.Machine
end

