-- ==== Sys2Proof/Machine/HostPort.lean ====
section
/-! DEFINITION. The host interface (`spec/70_reset_and_hazards.md` rules R210 to R218) and what the
host can read (`spec/10_state.md` rules R12, R22, R23, R26, R30). -/

namespace Sys2Proof.Machine

variable {w : Nat}

/-- The machine is `Decoding` or `Running` (R213). -/
def StateAt.busy (s : StateAt w) : Bool :=
  match s.status with
  | .decoding | .running => true
  | .idle | .ready | .done | .fault => false

/-- When a command is accepted (R212). A `LOAD_PROGRAM` longer than `PROG_MAX` and a `LOAD_IMEM` longer
than `IMEM_DEPTH` cannot be expressed at the interface (R218, V11); the model ignores them (log entry
4). `LOAD_IMEM` is no command of a machine built without it (R218; R5's table of open parameters). -/
def accepted (c : HostCommand) (s : StateAt w) : Bool :=
  !s.busy &&
  match c with
  | .loadProgram bytes => Config.fits s.params.progMax bytes.length
  | .decode => true
  | .loadImem entries => s.params.hasLoadImem && Config.fits s.params.imemDepth entries.length
  | .run => s.imemValid

/-- The error registers at 0 (R23, R24, R25). -/
def clearErrors (s : StateAt w) : StateAt w :=
  { s with errKind := none, errIpValid := false, errIp := 0, errInfo := 0 }

/-- The effect of a command that is accepted: `LOAD_PROGRAM` (R217), `DECODE` (R69, R215), `LOAD_IMEM`
(R218), `RUN` (R216). -/
def commandEffect (c : HostCommand) (s : StateAt w) : StateAt w :=
  match c with
  | .loadProgram bytes => { s with prog := bytes }
  | .decode => { clearErrors s with dpos := 0, imem := [], imemValid := false, status := .decoding }
  | .loadImem entries => { clearErrors s with imem := entries, imemValid := true, status := .ready }
  | .run =>
    { clearErrors s with ip := 0, vs := [], cs := [], heap := [], dbgLog := [], status := .running }

/-- The reset input: every piece of state at its reset value (R210). The parameters of the machine and
what the outside world does next are not state of the spec's machine and stay. -/
def resetMachine (s : StateAt w) : StateAt w :=
  StateAt.initial s.params s.host

/-- An event from outside: reset, or a command that is accepted or has no effect at all (R212, R213). -/
def hostEvent (e : HostEvent) (s : StateAt w) : StateAt w :=
  match e with
  | .reset => resetMachine s
  | .command c => if accepted c s then commandEffect c s else s

/-- The value of `STATUS` (R22). -/
def Status.code : Status → BitVec 3
  | .idle => 0
  | .decoding => 1
  | .ready => 2
  | .running => 3
  | .done => 4
  | .fault => 5

/-- The value of `ERR_KIND` for an error kind (R180). -/
def ErrKind.code : ErrKind → BitVec 4
  | .invalidOpcode => 1
  | .truncatedOperand => 2
  | .emptyStack => 3
  | .emptyOperand => 4
  | .emptyCallStack => 5
  | .notFoundAddressInStore => 6
  | .divideByZero => 7
  | .stackOverflow => 8
  | .callStackOverflow => 9
  | .programTooLong => 10

/-- `DPOS` has a meaning: after reset (R29), while decoding, and after a decoder's failure, when it is the
offset of the offending opcode byte (R19). Elsewhere it is any value (log entry 5). -/
def StateAt.dposMeant (s : StateAt w) : Bool :=
  match s.status with
  | .idle | .decoding => true
  | .fault => !s.errIpValid
  | .ready | .running | .done => false

/-- What the host reads from a register, as an unsigned number; it may read every one at any time
(R26, R212), and a read changes nothing (R45). -/
def hostReadReg (r : CtrlReg) (s : StateAt w) : Nat :=
  match r with
  | .status => s.status.code.toNat
  | .errKind => match s.errKind with | none => 0 | some k => k.code.toNat
  | .errIpValid => s.errIpValid.toNat
  | .errIp => s.errIp.toNat
  | .errInfo => s.errInfo.toNat
  | .ip => s.ip.toNat
  | .vsp => s.vsp
  | .csp => s.csp
  | .ilen => s.ilen
  | .imemValid => s.imemValid.toNat
  | .plen => s.plen
  | .dpos => if s.dposMeant then s.dpos else Config.freeDpos s.dpos

/-- `VS[i]`, `VS[0]` the bottom, for a live entry while the machine is not `Running` (R12, R212). -/
def hostReadVs (i : Nat) (s : StateAt w) : Option (Value w) :=
  if s.status = .running then none else s.vs.reverse[i]?

/-- `CS[i]`, `CS[0]` the oldest, for a live frame while the machine is not `Running` (R14, R212). -/
def hostReadCs (i : Nat) (s : StateAt w) : Option (Pointer w) :=
  if s.status = .running then none else s.cs.reverse[i]?

/-- The Value of `HEAP[a]` where `stored = 1`, while the machine is not `Running` (R16, R212). -/
def hostReadHeap (a : Byte) (s : StateAt w) : Option (Value w) :=
  if s.status = .running then none else Memory.read s.heap (heapAddress a)

end Sys2Proof.Machine
end

