-- ==== Sys2Proof/Machine/Step.lean ====
section
/-! DEFINITION. One step of the machine in its surroundings, and placing an instruction where the next
step fetches it. -/

namespace Sys2Proof.Machine

/-- One step: an event of the outside world where its schedule has one now (it lands between the
machine's own steps, R91, R211), else the machine's own step (R214). Each takes one slot. -/
def step (s : State) : Host.Outcome State Fault Refusal :=
  match s.body.host with
  | .event e :: rest => .next ⟨s.vlen, hostEvent e { s.body with host := rest }⟩
  | .quiet :: rest => machineStep { s.body with host := rest }
  | [] => machineStep s.body

/-- `s` with the instruction of a table word placed so that the very next step runs it: at
`IMEM[ip]`, with the machine `Running` on a valid sequence and the outside world quiet. Where the
decoder refuses the word, its bytes are the program and the decoder is about to meet them. -/
def State.withFetchWord (s : State) (nbits w : Nat) : State :=
  match decodeTableWord nbits w with
  | some i =>
    ⟨s.vlen, { s.body with
      imem := placeAt s.body.ip.toNat i s.body.imem, imemValid := true, status := .running, host := [] }⟩
  | none =>
    ⟨s.vlen, { s.body with
      prog := tableWordBytes nbits w, dpos := 0, imem := [], imemValid := false, status := .decoding,
      host := [] }⟩

end Sys2Proof.Machine
end

