-- ==== Sys2Proof/Safety.lean ====
section
/-! DEFINITION. What counts as a good state and as a safe run, in the terms the statements use, and the
spec's tables that are about all instructions at once (`spec/60_exceptions.md` rule R191). -/

namespace Sys2Proof.Machine

variable {w : Nat}

/-- The value stack is within its capacity (R13: "a counter 0 to `VS_DEPTH`"). -/
def StateAt.vsFits (s : StateAt w) : Prop := Config.fits s.params.vsDepth s.vsp = true

/-- The call stack is within its capacity (R15: "a counter 0 to `CS_DEPTH`"). -/
def StateAt.csFits (s : StateAt w) : Prop := Config.fits s.params.csDepth s.csp = true

/-- The error kinds of the decoder (R180, column "phase"). -/
def ErrKind.isDecodeTime : ErrKind → Bool
  | .invalidOpcode | .truncatedOperand | .programTooLong => true
  | .emptyStack | .emptyOperand | .emptyCallStack | .notFoundAddressInStore | .divideByZero
  | .stackOverflow | .callStackOverflow => false

/-- The states a machine can be in, however its host drives it. Each clause is a rule of the spec about
the machine's state. -/
structure StateAt.Inv (s : StateAt w) : Prop where
  /-- R5, decision D1. -/
  vlen_wf : Config.vlenWf w = true
  /-- R5. -/
  params_wf : s.params.wf w = true
  /-- R13. -/
  vs_fits : s.vsFits
  /-- R15. -/
  cs_fits : s.csFits
  /-- R21. -/
  imem_fits : Config.fits s.params.imemDepth s.ilen = true
  /-- R18. -/
  prog_fits : Config.fits s.params.progMax s.plen = true
  /-- R16: the canonical form of the stored cells. -/
  heap_wf : Memory.wf s.heap
  /-- R214: "`Idle` cannot accept `RUN` because `IMEM_VALID = 0` there". -/
  idle_invalid : s.status = .idle → s.imemValid = false
  /-- R69: a decode in progress has no valid sequence. -/
  decoding_invalid : s.status = .decoding → s.imemValid = false
  /-- R21, R214: a sequence stands in `IMEM` in `Ready`, `Running` and `Done`. -/
  valid_of_live : s.status = .ready ∨ s.status = .running ∨ s.status = .done → s.imemValid = true
  /-- R21, R75: with no valid sequence and no decode in progress, `ILEN = 0`. -/
  empty_of_invalid : s.imemValid = false → s.status ≠ .decoding → s.imem = []
  /-- R70, R76: what is decoded so far is exactly the bytes scanned so far. -/
  decoding_scanned : s.status = .decoding →
    s.dpos ≤ s.plen ∧ encodeSeq s.imem = s.prog.take s.dpos ∧ ∀ i ∈ s.imem, i.wellFormed = true
  /-- R23: an error is recorded exactly in `Fault`. -/
  error_iff_fault : s.errKind.isSome = true ↔ s.status = .fault
  /-- R24, R192: a run-time error is located at `ip`, and `ip` is an instruction. -/
  run_error : s.errIpValid = true →
    s.status = .fault ∧ s.errIp = s.ip ∧ s.ip.toNat < s.ilen ∧ s.imemValid = true ∧
      ∀ k, s.errKind = some k → k.isDecodeTime = false
  /-- R24, R75: a decode-time error has no pointer, and neither has no error. -/
  no_run_error : s.errIpValid = false →
    s.errIp = 0 ∧ ∀ k, s.errKind = some k → k.isDecodeTime = true ∧ s.imemValid = false
  /-- R25: no payload without an error. -/
  no_error_no_info : s.errKind = none → s.errInfo = 0

/-- The invariant of the machine at its width. -/
def State.Inv (s : State) : Prop := s.body.Inv

/-- A run has not failed (R201: "A fault is not a final success"). -/
def StateAt.Safe (s : StateAt w) : Prop := s.status ≠ .fault

/-- The outside world presents no event at this step. -/
def StateAt.quietNow (s : StateAt w) : Prop := s.host.head? = none ∨ s.host.head? = some .quiet

/-- The outside world's schedule moved on by one slot. -/
def StateAt.tick (s : StateAt w) : StateAt w := { s with host := s.host.tail }

/-- The state after a run-time error with this kind and payload, written out from R192. -/
def StateAt.faulted (s : StateAt w) (kind : ErrKind) (info : Value w) : StateAt w :=
  { s with errKind := some kind, errIpValid := true, errIp := s.ip, errInfo := info,
           status := .fault }

/-- The state after a decode-time error with this kind and payload, written out from R75. -/
def StateAt.decodeFaulted (s : StateAt w) (kind : ErrKind) (info : Value w) : StateAt w :=
  { s with errKind := some kind, errIpValid := false, errIp := 0, errInfo := info,
           imem := [], imemValid := false, status := .fault }

/-- The two states agree on everything a run reads or writes (R104). -/
def StateAt.sameRun (s t : StateAt w) : Prop :=
  s.params = t.params ∧ s.imem = t.imem ∧ s.ip = t.ip ∧ s.vs = t.vs ∧ s.cs = t.cs ∧ s.heap = t.heap ∧
  s.status = t.status ∧ s.errKind = t.errKind ∧ s.errIpValid = t.errIpValid ∧ s.errIp = t.errIp ∧
  s.errInfo = t.errInfo ∧ s.dbgLog = t.dbgLog

/-! ### Shapes of statements -/

/-- Format `N`: one byte, no operand field (R61). -/
def FormatN (make : Operand → Instr) (byte : Byte) : Prop :=
  encode (make none) = [byte] ∧ ∀ rest, decode (byte :: rest) = .ok (make none, rest)

/-- Format `K`: the opcode byte, then the operand byte, of any value (R61). -/
def FormatK (make : Operand → Instr) (byte : Byte) : Prop :=
  ∀ (k : Byte) (rest : List Byte), encode (make (some k)) = [byte, k] ∧
    decode (byte :: k :: rest) = .ok (make (some k), rest)

/-- A property of the two operands, second and first, and the result, at every width. -/
abbrev ResultRule := ∀ {w : Nat}, Value w → Value w → Value w → Prop

/-- An instruction of the two-operand convention (R120) whose operation raises nothing: on a machine of
any admissible width, with second `a` and first `b` on the stack it completes, replacing both by a `v`
with `result a b v` and changing `ip` and nothing else; with fewer than two Values it raises
`EmptyStack`. Its operand field, whatever it holds, is not used (R103). -/
def TwoOperand (make : Operand → Instr) (byte : Byte) (result : ResultRule) : Prop :=
  FormatN make byte ∧ ∀ (w : Nat) (o : Operand) (s : StateAt w), Config.vlenWf w = true →
    (∀ a b rest, s.vs = b :: a :: rest → s.vsFits →
      ∃ v, result a b v ∧
        exec (make o) ⟨w, s⟩ = .next ⟨w, { s with vs := v :: rest, ip := s.ip + 1 }⟩) ∧
    (s.vs.length < 2 → exec (make o) ⟨w, s⟩ = .next ⟨w, s.faulted .emptyStack 0⟩)

/-- As `TwoOperand`, for an operation that raises `DivideByZero` when the first operand is 0, after both
pops and before the push (R128). -/
def TwoOperandDivide (make : Operand → Instr) (byte : Byte) (result : ResultRule) : Prop :=
  FormatN make byte ∧ ∀ (w : Nat) (o : Operand) (s : StateAt w), Config.vlenWf w = true →
    (∀ a b rest, s.vs = b :: a :: rest → s.vsFits → b ≠ 0 →
      ∃ v, result a b v ∧
        exec (make o) ⟨w, s⟩ = .next ⟨w, { s with vs := v :: rest, ip := s.ip + 1 }⟩) ∧
    (∀ a rest, s.vs = 0 :: a :: rest → exec (make o) ⟨w, s⟩ = .next ⟨w, s.faulted .divideByZero 0⟩) ∧
    (s.vs.length < 2 → exec (make o) ⟨w, s⟩ = .next ⟨w, s.faulted .emptyStack 0⟩)

/-- `q = tdiv(x, y)` in R124's words: the integer of largest magnitude with `|q * y| <= |x|` and the
sign of `x / y`. -/
def IsTruncatedQuotient (x y q : Int) : Prop :=
  |q * y| ≤ |x| ∧ |x| < |q * y| + |y| ∧ 0 ≤ q * (x * y)

/-- `v = wrap(z)`: the unsigned reading of `v` is `z mod 2^VLEN` (R6). -/
def IsWrap (z : Int) (v : Value w) : Prop := (v.toNat : Int) = z % 2 ^ w

/-! ### All instructions at once -/

/-- R191's matrix: the errors of an instruction, in test order. -/
def errorTests : Instr → List ErrKind
  | .noop _ | .exit _ => []
  | .push _ => [.emptyOperand, .stackOverflow]
  | .store _ => [.emptyOperand, .emptyStack]
  | .load _ => [.emptyOperand, .notFoundAddressInStore, .stackOverflow]
  | .add _ | .sub _ | .mul _ | .and _ | .or _ | .xor _ | .lsf _ | .rsf _ | .eq _ | .gt _ | .lt _
  | .gte _ | .lte _ => [.emptyStack]
  | .div _ | .mod _ => [.emptyStack, .divideByZero]
  | .not _ => [.emptyStack]
  | .proc _ | .jmp _ => [.emptyOperand]
  | .call _ => [.emptyOperand, .callStackOverflow]
  | .ret _ => [.emptyCallStack]
  | .jif _ => [.emptyStack]
  | .dbg _ => [.emptyStack]

/-- How many Values an instruction needs on the stack (R183, R233). -/
def valuesNeeded : Instr → Nat
  | .noop _ | .push _ | .load _ | .proc _ | .call _ | .ret _ | .jmp _ | .exit _ => 0
  | .store _ | .not _ | .dbg _ => 1
  | .add _ | .sub _ | .mul _ | .div _ | .mod _ | .and _ | .or _ | .xor _ | .lsf _ | .rsf _ | .eq _
  | .gt _ | .lt _ | .gte _ | .lte _ | .jif _ => 2

/-- The cause of each run-time error (R183 to R189); the decoder's kinds have none here. -/
def errorCause (i : Instr) (s : StateAt w) : ErrKind → Bool
  | .emptyOperand => i.operand.isNone
  | .emptyStack => decide (s.vsp < valuesNeeded i)
  | .emptyCallStack => decide (s.csp = 0)
  | .notFoundAddressInStore =>
    match i.operand with
    | none => false
    | some k => (Memory.read s.heap k.toNat).isNone
  | .divideByZero =>
    match s.vs with
    | [] => false
    | b :: _ => decide (b.toInt = 0)
  | .stackOverflow => decide (s.params.vsDepth = some s.vsp)
  | .callStackOverflow => decide (s.params.csDepth = some s.csp)
  | .invalidOpcode | .truncatedOperand | .programTooLong => false

/-- The payload column of R180 for a run-time error. -/
def errorPayload (i : Instr) : ErrKind → Value w
  | .notFoundAddressInStore =>
    match i.operand with
    | none => 0
    | some k => BitVec.ofNat w k.toNat
  | .emptyOperand | .emptyStack | .emptyCallStack | .divideByZero | .stackOverflow
  | .callStackOverflow | .invalidOpcode | .truncatedOperand | .programTooLong => 0

/-- The first error, in R191's order, whose cause holds (R102). -/
def firstError (i : Instr) (s : StateAt w) : Option ErrKind := (errorTests i).find? (errorCause i s)

end Sys2Proof.Machine
end

