-- ==== Sys2Proof/Certificates/Slice0/Obligations.lean ====
section
/-! DEFINITION. The statements about the model, from the numbered rules of `spec/`. Value-stack lists are
written top first: `b :: a :: rest` has first-popped `b` and second-popped `a`. The premise `vsFits`
("the value stack is within its capacity") is a clause of the invariant `State.Inv`, which every step
keeps (`InvariantStep`).

A machine of width `w` is `⟨w, s⟩` with `s : StateAt w` (R5: the width is an argument); the statements are
about every width, or, with the premise `Config.vlenWf w = true` (itself a clause of the invariant), about
every admissible one. That a step keeps the width is `StepAlwaysAnswers`. -/

open Sys2Proof Sys2Proof.Machine

/-! ### Encoding -/

/-- R77 and R70: for every well-formed instruction, whatever follows it, decoding its encoding gives it
back with every operand, and the bytes after it. -/
def Obligations.DecodeOfEncode : Prop :=
  ∀ (i : Instr) (rest : List Byte), i.wellFormed = true → decode (encode i ++ rest) = .ok (i, rest)

/-- The other direction for one instruction: what is decoded is well formed, and encodes to the bytes
consumed (R20, R77, R78). -/
def Obligations.EncodeOfDecode : Prop :=
  ∀ (bytes rest : List Byte) (i : Instr), decode bytes = .ok (i, rest) →
    i.wellFormed = true ∧ encode i ++ rest = bytes

/-- R78 over the decoder's own state machine, both directions: a decode that ends in `Ready` leaves a
sequence that encodes to the program; and a program that is the encoding of a sequence of entries with
`opv = Bearing(op)` that fits is decoded to that sequence, in one step an entry and one that ends
decoding (what `DPOS` is in `Ready` is left open, R19). -/
def Obligations.SequenceRoundTrip : Prop :=
  (∀ (w : Nat) (s t : StateAt w) (n : Nat), s.status = .decoding → s.dpos = 0 → s.imem = [] →
    s.host = [] →
    Host.Core.run Sys2Proof.core n (State.mk w s) = .next (State.mk w t) → t.status = .ready →
      encodeSeq t.imem = s.prog) ∧
  (∀ (w : Nat) (s : StateAt w) (l : List Instr), s.status = .decoding → s.dpos = 0 → s.imem = [] →
    s.host = [] →
    (∀ i ∈ l, i.wellFormed = true) → Config.fits s.params.imemDepth l.length = true →
    s.prog = encodeSeq l →
    ∃ d, Host.Core.run Sys2Proof.core (l.length + 1) (State.mk w s) =
      .next (State.mk w { s with imem := l, dpos := d, imemValid := true, status := .ready }))

/-- R71: decoding always ends, after at most `PLEN + 1` steps, in `Ready` or in `Fault`. -/
def Obligations.DecodingEnds : Prop :=
  ∀ (w : Nat) (s : StateAt w), s.status = .decoding → s.dpos = 0 → s.host = [] →
    ∃ (n : Nat) (t : StateAt w), n ≤ s.plen + 1 ∧
      Host.Core.run Sys2Proof.core n (State.mk w s) = .next (State.mk w t) ∧
      (t.status = .ready ∨ t.status = .fault)

/-- R67 and R72: the valid opcode bytes are exactly the 27 of R66, 229 are invalid, and an invalid byte
at an opcode position is rejected by name, with that byte. -/
def Obligations.InvalidBytes : Prop :=
  (∀ b : Byte, isOpcode b = true ↔ b ∈ ([0x00, 0x01, 0x02, 0x03, 0x10, 0x11, 0x12, 0x13, 0x14, 0x18,
    0x19, 0x1A, 0x1B, 0x1C, 0x1D, 0x20, 0x21, 0x22, 0x23, 0x24, 0x28, 0x29, 0x2A, 0x2C, 0x2D, 0xFE,
    0xFF] : List Byte)) ∧
  ((List.finRange 256).filter (fun n => !isOpcode (BitVec.ofFin n))).length = 229 ∧
  ∀ (b : Byte) (rest : List Byte), isOpcode b = false → decode (b :: rest) = .error (.invalidOpcode b)

/-- A sanity statement: words written out from R66's map decode to their instructions, one per family
(the programs S3 and E14 of `spec/95_test_vectors.md` among them). -/
def Obligations.DecodeWords : Prop :=
  decode [0b00000000#8] = .ok (.noop none, []) ∧
  decode [0b00000001#8, 0x77#8] = .ok (.push (some 0x77), []) ∧
  decode [0b00010001#8] = .ok (.sub none, []) ∧
  decode [0b00011011#8] = .ok (.not none, []) ∧
  decode [0b00100011#8] = .ok (.gte none, []) ∧
  decode [0b00101101#8, 0xFF#8, 0xFF#8] = .ok (.jif (some 0xFF), [0xFF#8]) ∧
  decode [0b11111110#8, 0x00#8, 0xFF#8] = .ok (.dbg (some 0), [0xFF#8]) ∧
  decode [0b11111111#8] = .ok (.exit none, []) ∧
  decode [0x2B#8] = .error (.invalidOpcode 0x2B) ∧ decode [0xFE#8] = .error (.truncatedOperand 0xFE)

/-! ### The decoder's step -/

/-- R70: one decoder step, case by case: the buffer exhausted, the three failures in their order with
the effect of `DecodeFault` (R75), and one instruction decoded. -/
def Obligations.DecoderStep : Prop :=
  ∀ (w : Nat) (s : StateAt w), s.quietNow → s.status = .decoding → s.dpos ≤ s.plen →
    (s.dpos = s.plen → step ⟨w, s⟩ = .next ⟨w, { s.tick with imemValid := true, status := .ready }⟩) ∧
    ∀ b : Byte, s.prog[s.dpos]? = some b →
      (isOpcode b = false →
        step ⟨w, s⟩ = .next ⟨w, s.tick.decodeFaulted .invalidOpcode (BitVec.ofNat _ b.toNat)⟩) ∧
      (isOpcode b = true → bearing b = true → s.dpos + 1 = s.plen →
        step ⟨w, s⟩ = .next ⟨w, s.tick.decodeFaulted .truncatedOperand (BitVec.ofNat _ b.toNat)⟩) ∧
      (isOpcode b = true → ¬ (bearing b = true ∧ s.dpos + 1 = s.plen) →
        s.params.imemDepth = some s.ilen →
          step ⟨w, s⟩ = .next ⟨w, s.tick.decodeFaulted .programTooLong 0⟩) ∧
      (isOpcode b = true → s.params.imemDepth ≠ some s.ilen → bearing b = true →
        ∀ k : Byte, s.prog[s.dpos + 1]? = some k →
          ∃ i : Instr, i.opcodeByte = b ∧ i.operand = some k ∧
            step ⟨w, s⟩ = .next ⟨w, { s.tick with imem := s.imem ++ [i], dpos := s.dpos + 2 }⟩) ∧
      (isOpcode b = true → s.params.imemDepth ≠ some s.ilen → bearing b = false →
        ∃ i : Instr, i.opcodeByte = b ∧ i.operand = none ∧
          step ⟨w, s⟩ = .next ⟨w, { s.tick with imem := s.imem ++ [i], dpos := s.dpos + 1 }⟩)

/-- R75: whatever makes a decoder step fail, no partially decoded sequence is left, no pointer is
recorded, `DPOS` stays, and the next `RUN` is refused. -/
def Obligations.DecoderFailure : Prop :=
  ∀ (w : Nat) (s t : StateAt w), s.quietNow → s.status = .decoding → step ⟨w, s⟩ = .next ⟨w, t⟩ →
    t.status = .fault →
    (∃ kind info, t = s.tick.decodeFaulted kind info ∧ kind.isDecodeTime = true) ∧
    t.ilen = 0 ∧ t.dpos = s.dpos ∧ hostReadReg .dpos t = s.dpos ∧ t.errIpValid = false ∧ t.errIp = 0 ∧
    ∀ rest, step ⟨w, { t with host := .event (.command .run) :: rest }⟩ =
      .next ⟨w, { t with host := rest }⟩

/-! ### The engine and the top-level state machine -/

/-- R92: with the machine `Running` and the outside world quiet, a step at a state whose entry at `ip` is
`i` is `exec i` there, and the only thing around it is that the outside world's schedule moves on;
running past the end, however `ip` came there, is success and changes nothing else. -/
def Obligations.EngineStep : Prop :=
  ∀ (w : Nat) (s : StateAt w), s.quietNow → s.status = .running →
    (∀ i : Instr, s.imem[s.ip.toNat]? = some i → step ⟨w, s⟩ = exec i ⟨w, s.tick⟩) ∧
    (s.ilen ≤ s.ip.toNat → step ⟨w, s⟩ = .next ⟨w, { s.tick with status := .done }⟩)

/-- From bytes to a run: when the decoder reads `i` from the bytes at `DPOS` and there is room, the step
puts `i` at the end of the Instruction Sequence, and once the machine is `Running` with `ip` at that
index, a step is `exec i` (R70, R92). -/
def Obligations.StepRunsDecoded : Prop :=
  ∀ (w : Nat) (s : StateAt w) (i : Instr) (rest : List Byte), s.quietNow → s.status = .decoding →
    decode (s.prog.drop s.dpos) = .ok (i, rest) → s.params.imemDepth ≠ some s.ilen →
    ∃ t, step ⟨w, s⟩ = .next ⟨w, t⟩ ∧ t.status = .decoding ∧
      ∀ (v : Nat) (u : StateAt v), u.imem = t.imem → u.ip.toNat = s.ilen → u.status = .running →
        u.quietNow → step ⟨v, u⟩ = exec i ⟨v, u.tick⟩

/-- An instruction placed where the next step fetches it (`State.withFetchWord`) is the one the next step
runs, whatever state it is placed in: for every table word the decoder reads as `i`, `step` is `exec i`
at that state, and placing changes nothing else than the four fields named. The placing itself is the
model's way of loading a program (log entry 3). -/
def Obligations.PlacedWordRuns : Prop :=
  ∀ (w : Nat) (s : StateAt w) (nbits word : Nat) (i : Instr), decodeTableWord nbits word = some i →
    ∃ l : List Instr, State.withFetchWord ⟨w, s⟩ nbits word =
        ⟨w, { s with imem := l, imemValid := true, status := .running, host := [] }⟩ ∧
      step (State.withFetchWord ⟨w, s⟩ nbits word) = exec i (State.withFetchWord ⟨w, s⟩ nbits word)

/-- R200 and R90: outside `Decoding` and `Running` the machine does nothing until the host commands it. -/
def Obligations.StepWaits : Prop :=
  ∀ (w : Nat) (s : StateAt w), s.quietNow → s.busy = false → step ⟨w, s⟩ = .next ⟨w, s.tick⟩

/-- R202: nothing stops the machine but the ends the spec gives a run; every step of every state answers
a next state, never a model fault and never a refusal, and that is a state of the same machine: its width
and its parameters are as before (R5). -/
def Obligations.StepAlwaysAnswers : Prop :=
  ∀ (w : Nat) (s : StateAt w), ∃ t : StateAt w, step ⟨w, s⟩ = .next ⟨w, t⟩ ∧ t.params = s.params

/-- R214: the transitions of `STATUS` over the machine's own steps and their side conditions, from every
state of the invariant; no other transition exists. -/
def Obligations.OwnStepTransitions : Prop :=
  ∀ (w : Nat) (s t : StateAt w), s.Inv → s.quietNow → step ⟨w, s⟩ = .next ⟨w, t⟩ →
    (s.busy = false ∧ t = s.tick) ∨
    (s.status = .decoding ∧
      ((s.dpos = s.plen ∧ t.status = .ready ∧ t.imemValid = true) ∨
       (s.dpos < s.plen ∧ t.status = .decoding ∧ t.ilen = s.ilen + 1 ∧ s.dpos < t.dpos) ∨
       (s.dpos < s.plen ∧ t.status = .fault ∧ t.imemValid = false))) ∨
    (s.status = .running ∧
      ((s.ilen ≤ s.ip.toNat ∧ t.status = .done) ∨
       (∃ o, s.imem[s.ip.toNat]? = some (.exit o) ∧ t.status = .done) ∨
       (∃ i, s.imem[s.ip.toNat]? = some i ∧ (∀ o, i ≠ .exit o) ∧ firstError i s = none ∧
         t.status = .running) ∨
       (∃ i k, s.imem[s.ip.toNat]? = some i ∧ firstError i s = some k ∧ t.status = .fault ∧
         t.errKind = some k ∧ t.errIp = s.ip)))

/-- R214: the transitions of `STATUS` over an event of the outside world. -/
def Obligations.EventTransitions : Prop :=
  ∀ (w : Nat) (s t : StateAt w) (e : HostEvent) (rest : List HostSlot), s.Inv →
    s.host = .event e :: rest → step ⟨w, s⟩ = .next ⟨w, t⟩ →
    (e = .reset ∧ t.status = .idle) ∨
    (s.busy = true ∧ e ≠ .reset ∧ t = s.tick) ∨
    (s.busy = false ∧
      ((∃ bytes, e = .command (.loadProgram bytes) ∧ t.status = s.status) ∨
       (e = .command .decode ∧ t.status = .decoding) ∨
       (∃ l, e = .command (.loadImem l) ∧ (t.status = .ready ∨ t = s.tick)) ∨
       (e = .command .run ∧ s.imemValid = true ∧ s.status ≠ .idle ∧ t.status = .running) ∨
       (e = .command .run ∧ s.imemValid = false ∧ t = s.tick)))

/-! ### The host interface and reset -/

/-- R210: reset, in any state and at any time, puts every piece of state at its reset value. (The two
fields that are the model's own, the parameters and what the outside world does next, are not state of
the spec's machine and stay.) -/
def Obligations.ResetEffect : Prop :=
  ∀ (w : Nat) (s : StateAt w) (rest : List HostSlot), s.host = .event .reset :: rest →
    step ⟨w, s⟩ = .next
      ⟨w, { ip := 0, vs := [], cs := [], heap := [], prog := [], dpos := 0, imem := [], imemValid := false,
            status := .idle, errKind := none, errIpValid := false, errIp := 0, errInfo := 0, dbgLog := [],
            params := s.params, host := rest }⟩

/-- R26 and R29: after reset every one of the twelve registers reads 0, no live stack entry or call
frame exists, no heap cell is stored, and there is no debug event. -/
def Obligations.ResetReads : Prop :=
  (∀ r : CtrlReg, hostReadReg r State.reset.body = 0) ∧
  (∀ i, hostReadVs i State.reset.body = none ∧ hostReadCs i State.reset.body = none) ∧
  (∀ a, hostReadHeap a State.reset.body = none) ∧ State.reset.body.dbgLog = []

/-- R22, R180 and R26: the numbers the host reads from `STATUS` and `ERR_KIND`; the values 6, 7 and 11
to 15 are never read. -/
def Obligations.StatusAndErrorNumbers : Prop :=
  (∀ (w : Nat) (s : StateAt w), hostReadReg .status s < 6 ∧ hostReadReg .errKind s < 11) ∧
  (∀ (w : Nat) (s : StateAt w), (hostReadReg .status s = 0 ↔ s.status = .idle) ∧
    (hostReadReg .status s = 1 ↔ s.status = .decoding) ∧
    (hostReadReg .status s = 2 ↔ s.status = .ready) ∧
    (hostReadReg .status s = 3 ↔ s.status = .running) ∧
    (hostReadReg .status s = 4 ↔ s.status = .done) ∧
    (hostReadReg .status s = 5 ↔ s.status = .fault)) ∧
  (∀ (w : Nat) (s : StateAt w), (hostReadReg .errKind s = 0 ↔ s.errKind = none) ∧
    (hostReadReg .errKind s = 1 ↔ s.errKind = some .invalidOpcode) ∧
    (hostReadReg .errKind s = 2 ↔ s.errKind = some .truncatedOperand) ∧
    (hostReadReg .errKind s = 3 ↔ s.errKind = some .emptyStack) ∧
    (hostReadReg .errKind s = 4 ↔ s.errKind = some .emptyOperand) ∧
    (hostReadReg .errKind s = 5 ↔ s.errKind = some .emptyCallStack) ∧
    (hostReadReg .errKind s = 6 ↔ s.errKind = some .notFoundAddressInStore) ∧
    (hostReadReg .errKind s = 7 ↔ s.errKind = some .divideByZero) ∧
    (hostReadReg .errKind s = 8 ↔ s.errKind = some .stackOverflow) ∧
    (hostReadReg .errKind s = 9 ↔ s.errKind = some .callStackOverflow) ∧
    (hostReadReg .errKind s = 10 ↔ s.errKind = some .programTooLong))

/-- R11 to R26: what the host reads from the registers other than `STATUS` and `ERR_KIND`, in every state,
from `DPOS` wherever R19, and R29 after reset, gives it a meaning (log entry 5); and R93 in the host's terms:
when a step of a running machine ends the run with success, the host reads an `IP` below `ILEN` exactly when
the step executed EXIT, and one at or past `ILEN` exactly when `ip` had run past the end. -/
def Obligations.HostReadsRegisters : Prop :=
  (∀ (w : Nat) (s : StateAt w),
    hostReadReg .errIpValid s = (if s.errIpValid = true then 1 else 0) ∧
    hostReadReg .errIp s = s.errIp.toNat ∧ hostReadReg .errInfo s = s.errInfo.toNat ∧
    hostReadReg .ip s = s.ip.toNat ∧ hostReadReg .vsp s = s.vs.length ∧
    hostReadReg .csp s = s.cs.length ∧ hostReadReg .ilen s = s.imem.length ∧
    hostReadReg .imemValid s = (if s.imemValid = true then 1 else 0) ∧
    hostReadReg .plen s = s.prog.length ∧
    (s.status = .idle ∨ s.status = .decoding ∨ (s.status = .fault ∧ s.errIpValid = false) →
      hostReadReg .dpos s = s.dpos)) ∧
  ∀ (w : Nat) (s t : StateAt w), s.quietNow → s.status = .running → step ⟨w, s⟩ = .next ⟨w, t⟩ →
    t.status = .done →
    (hostReadReg .ip t < hostReadReg .ilen t ↔ ∃ o, s.imem[s.ip.toNat]? = some (.exit o)) ∧
    (hostReadReg .ilen t ≤ hostReadReg .ip t ↔ s.ilen ≤ s.ip.toNat)

/-- R12, R14, R16 and R212: the host reads the live stack entries (entry 0 the oldest), call frames and
heap cells while the machine is not `Running`, and none of them while it is. -/
def Obligations.HostReadsLiveEntries : Prop :=
  ∀ (w : Nat) (s : StateAt w),
    (s.status ≠ .running →
      (∀ (i : Nat) (v : Value w), hostReadVs i s = some v ↔ i < s.vsp ∧ s.vs[s.vsp - 1 - i]? = some v) ∧
      (∀ (i : Nat) (p : Pointer w), hostReadCs i s = some p ↔ i < s.csp ∧ s.cs[s.csp - 1 - i]? = some p) ∧
      (∀ a : Byte, hostReadHeap a s = Memory.read s.heap a.toNat)) ∧
    (s.status = .running →
      ∀ (i : Nat) (a : Byte), hostReadVs i s = none ∧ hostReadCs i s = none ∧ hostReadHeap a s = none)

/-- R213: while the machine is `Decoding` or `Running`, every command is ignored, and only the outside
world's schedule moves on. -/
def Obligations.BusyIgnoresCommands : Prop :=
  ∀ (w : Nat) (s : StateAt w) (c : HostCommand) (rest : List HostSlot),
    s.status = .decoding ∨ s.status = .running → s.host = .event (.command c) :: rest →
    step ⟨w, s⟩ = .next ⟨w, { s with host := rest }⟩

/-- R216: `RUN`, accepted with `IMEM_VALID = 1` while the machine is not busy: its whole effect, in one
step. With `IMEM_VALID = 0` it is ignored (R212). -/
def Obligations.RunCommand : Prop :=
  ∀ (w : Nat) (s : StateAt w) (rest : List HostSlot), s.busy = false →
    s.host = .event (.command .run) :: rest →
    (s.imemValid = true →
      step ⟨w, s⟩ = .next ⟨w, { s with
          ip := 0, vs := [], cs := [], heap := [], errKind := none,
          errIpValid := false, errIp := 0, errInfo := 0, dbgLog := [],
          status := .running, host := rest }⟩) ∧
    (s.imemValid = false → step ⟨w, s⟩ = .next ⟨w, { s with host := rest }⟩)

/-- R215: `DECODE`, accepted while the machine is not busy: its whole effect; `ip`, the stacks and the
heap are not touched. -/
def Obligations.DecodeCommand : Prop :=
  ∀ (w : Nat) (s : StateAt w) (rest : List HostSlot), s.busy = false →
    s.host = .event (.command .decode) :: rest →
    step ⟨w, s⟩ = .next ⟨w, { s with
        dpos := 0, imem := [], imemValid := false, errKind := none,
        errIpValid := false, errIp := 0, errInfo := 0, status := .decoding,
        host := rest }⟩

/-- R217: `LOAD_PROGRAM(B)` with a byte string within `PROG_MAX`, while the machine is not busy, changes
`PROG` and `PLEN` and nothing else. -/
def Obligations.LoadProgramCommand : Prop :=
  ∀ (w : Nat) (s : StateAt w) (bytes : List Byte) (rest : List HostSlot), s.busy = false →
    Config.fits s.params.progMax bytes.length = true →
    s.host = .event (.command (.loadProgram bytes)) :: rest →
    step ⟨w, s⟩ = .next ⟨w, { s with prog := bytes, host := rest }⟩

/-- R218: `LOAD_IMEM(S)` on a machine that has it, with a sequence within `IMEM_DEPTH`, while the machine
is not busy: its whole effect. -/
def Obligations.LoadImemCommand : Prop :=
  ∀ (w : Nat) (s : StateAt w) (l : List Instr) (rest : List HostSlot), s.busy = false →
    s.params.hasLoadImem = true → Config.fits s.params.imemDepth l.length = true →
    s.host = .event (.command (.loadImem l)) :: rest →
    step ⟨w, s⟩ = .next ⟨w, { s with
        imem := l, imemValid := true, errKind := none, errIpValid := false,
        errIp := 0, errInfo := 0, status := .ready, host := rest }⟩

/-! ### The invariant -/

/-- The invariant of the machine's state holds after reset (R29). -/
def Obligations.InvariantReset : Prop := State.reset.Inv

/-- Every step keeps the invariant, from every state that meets it: the width and the parameters
admissible, the stacks, the memories and the program within their capacities, the heap in canonical form, `IMEM_VALID` and `ILEN` as `STATUS` says
(R21, R69, R75), the sequence being decoded the encoding of the bytes scanned (R76), an error recorded
exactly in `Fault` and located at an instruction when it is a run-time one (R23 to R25, R192). -/
def Obligations.InvariantStep : Prop :=
  ∀ s t : State, s.Inv → step s = .next t → t.Inv

/-! ### Rules about all instructions -/

/-- R191 with R102, R180 and R183 to R189: for every instruction, operand field and state, if a cause of
an error of the matrix holds, the first one in test order is entered as R192 says, with its payload;
if none holds, the instruction completes without an error. -/
def Obligations.ErrorMatrix : Prop :=
  ∀ (i : Instr) (w : Nat) (s : StateAt w), s.vsFits → s.status = .running →
    (∀ k, firstError i s = some k → exec i ⟨w, s⟩ = .next ⟨w, s.faulted k (errorPayload i k)⟩) ∧
    (firstError i s = none →
      ∃ t, exec i ⟨w, s⟩ = .next ⟨w, t⟩ ∧ t.status ≠ .fault ∧ t.errKind = s.errKind)

/-- R192 and R101: an instruction that raises changes the four error registers and `STATUS` and nothing
else; `ERR_IP` is the index of the failing instruction. -/
def Obligations.RuntimeErrorEntry : Prop :=
  ∀ (i : Instr) (w : Nat) (s t : StateAt w), s.status = .running → exec i ⟨w, s⟩ = .next ⟨w, t⟩ →
    t.status = .fault →
    ∃ k info, t = { s with errKind := some k, errIpValid := true, errIp := s.ip, errInfo := info,
                           status := .fault } ∧ k.isDecodeTime = false ∧
      (k ≠ .notFoundAddressInStore → info = 0)

/-- R95 and R8: without an error an instruction falls through, redirects or halts; the redirecting ones
are PROC, CALL, RET, JMP and JIF when taken, and only EXIT halts. -/
def Obligations.StepOutcomes : Prop :=
  ∀ (i : Instr) (w : Nat) (s t : StateAt w), s.status = .running → exec i ⟨w, s⟩ = .next ⟨w, t⟩ →
    t.status ≠ .fault →
    match i with
    | .exit _ => t.ip = s.ip ∧ t.status = .done
    | .proc o => t.status = .running ∧ ∃ k, o = some k ∧ t.ip = s.ip + BitVec.ofNat _ k.toNat + 1
    | .call o => t.status = .running ∧ ∃ k, o = some k ∧ t.ip = BitVec.ofNat _ (k.toNat + 1)
    | .ret _ => t.status = .running ∧ s.cs.head? = some t.ip
    | .jmp o => t.status = .running ∧ ∃ k, o = some k ∧ t.ip = BitVec.ofNat _ k.toNat
    | .jif _ => t.status = .running ∧ ∃ c target rest, s.vs = c :: target :: rest ∧
        t.ip = if c = 0 then target else s.ip + 1
    | .noop _ | .push _ | .store _ | .load _ | .add _ | .sub _ | .mul _ | .div _ | .mod _ | .and _
    | .or _ | .xor _ | .not _ | .lsf _ | .rsf _ | .eq _ | .gt _ | .lt _ | .gte _ | .lte _ | .dbg _ =>
        t.status = .running ∧ t.ip = s.ip + 1

/-- R53, R40, R20 and R177: no instruction writes the program bytes, the decoder's position, the
instruction memory or its valid bit; and none changes the machine's width, its other parameters or its
surroundings. -/
def Obligations.ProgramIsReadOnly : Prop :=
  ∀ (i : Instr) (w : Nat) (s : StateAt w) (t : State), exec i ⟨w, s⟩ = .next t →
    ∃ u : StateAt w, t = ⟨w, u⟩ ∧ u.prog = s.prog ∧ u.dpos = s.dpos ∧ u.imem = s.imem ∧
      u.imemValid = s.imemValid ∧ u.params = s.params ∧ u.host = s.host

/-- The frames of all instructions over the rest of the state (R10, R14, R16, R17, R27, R42): the heap is
changed only by STORE, and there only at the cell its operand selects; the call stack only by CALL and
RET; the debug log only by DBG; the value stack not by NOOP, PROC, CALL, RET, JMP and EXIT; the error
registers and an entry into `Fault` only by raising. -/
def Obligations.InstructionFrames : Prop :=
  ∀ (i : Instr) (w : Nat) (s t : StateAt w), exec i ⟨w, s⟩ = .next ⟨w, t⟩ →
    (∀ a, (∀ k, i = .store (some k) → a ≠ heapAddress k) →
      Memory.read t.heap a = Memory.read s.heap a) ∧
    ((∀ o, i ≠ .call o) → (∀ o, i ≠ .ret o) → t.cs = s.cs) ∧
    ((∀ o, i ≠ .dbg o) → t.dbgLog = s.dbgLog) ∧
    (i ∈ [.noop i.operand, .proc i.operand, .call i.operand, .ret i.operand, .jmp i.operand,
          .exit i.operand] → t.vs = s.vs) ∧
    (t.status ≠ .fault → t.errKind = s.errKind ∧ t.errIpValid = s.errIpValid ∧ t.errIp = s.errIp ∧
      t.errInfo = s.errInfo)

/-- R42: every opcode but STORE and LOAD leaves the heap idle, neither reading nor writing a cell: with
any other heap the instruction does the same to everything else. -/
def Obligations.HeapIdle : Prop :=
  ∀ (i : Instr) (w : Nat) (s t : StateAt w) (h : Memory w), (∀ o, i ≠ .store o) → (∀ o, i ≠ .load o) →
    exec i ⟨w, s⟩ = .next ⟨w, t⟩ → exec i ⟨w, { s with heap := h }⟩ = .next ⟨w, { t with heap := h }⟩

/-- R10: the value stack is reachable only at its top: what lies below the entries an instruction uses
neither changes nor matters. Entries added below the stack stay there, on every machine whose value stack,
bounded or not, has room for them under the entries the instruction leaves. -/
def Obligations.StackReachedAtTop : Prop :=
  ∀ (i : Instr) (w : Nat) (s t : StateAt w) (below : List (Value w)), s.status = .running →
    exec i ⟨w, s⟩ = .next ⟨w, t⟩ → t.status ≠ .fault →
    Config.fits s.params.vsDepth (s.vs ++ below).length = true →
    Config.fits s.params.vsDepth (t.vs ++ below).length = true →
    exec i ⟨w, { s with vs := s.vs ++ below }⟩ = .next ⟨w, { t with vs := t.vs ++ below }⟩

/-- R5 with R188, R189 and R190: with a capacity unbounded, its fault is never raised, by any step from
any state of the invariant. -/
def Obligations.UnboundedNeverOverflows : Prop :=
  ∀ (w : Nat) (s t : StateAt w), s.Inv → step ⟨w, s⟩ = .next ⟨w, t⟩ →
    (s.params.vsDepth = none → t.errKind = some .stackOverflow → s.errKind = some .stackOverflow) ∧
    (s.params.csDepth = none → t.errKind = some .callStackOverflow →
      s.errKind = some .callStackOverflow) ∧
    (s.params.imemDepth = none → t.errKind = some .programTooLong → s.errKind = some .programTooLong)

/-- R11: `ip` never wraps in use: from a state of the invariant with a bounded instruction memory, at a
fetched instruction, neither `ip + 1` nor `ip + k + 1` overflows. -/
def Obligations.PointerNeverWraps : Prop :=
  ∀ (w : Nat) (s : StateAt w) (c : Nat) (k : Byte), s.Inv → s.params.imemDepth = some c →
    s.ip.toNat < s.ilen →
    (s.ip + 1).toNat = s.ip.toNat + 1 ∧
    (s.ip + toPointer (zextByte k) + 1).toNat = s.ip.toNat + k.toNat + 1

/-- R104: a run is a function of the Instruction Sequence and the parameters only: two machines with the
same sequence and parameters (the width among them), whatever else they hold, that accept `RUN` and are
left alone are after every number of steps in the same state, in everything a run reads or writes. -/
def Obligations.RunDeterminism : Prop :=
  ∀ (w : Nat) (s t : StateAt w) (n : Nat), s.busy = false → t.busy = false → s.imemValid = true →
    t.imemValid = true → s.imem = t.imem → s.params = t.params →
    s.host = [.event (.command .run)] → t.host = [.event (.command .run)] →
    ∃ s' t' : StateAt w, Host.Core.run Sys2Proof.core (n + 1) (State.mk w s) = .next (State.mk w s') ∧
      Host.Core.run Sys2Proof.core (n + 1) (State.mk w t) = .next (State.mk w t') ∧ s'.sameRun t'

/-! ### Stack and heap instructions -/

/-- R110. -/
def Obligations.NoopRule : Prop :=
  FormatN .noop 0x00 ∧ ∀ (o : Operand) (w : Nat) (s : StateAt w),
    exec (.noop o) ⟨w, s⟩ = .next ⟨w, { s with ip := s.ip + 1 }⟩

/-- R111: PUSH pushes its operand, a Value 0 to 255 and never negative (R63). -/
def Obligations.PushRule : Prop :=
  FormatK .push 0x01 ∧ ∀ (w : Nat) (s : StateAt w),
    (∀ k : Byte, Config.vlenWf w = true → s.params.vsDepth ≠ some s.vsp →
      ∃ v : Value w, v.toInt = k.toNat ∧
        exec (.push (some k)) ⟨w, s⟩ = .next ⟨w, { s with vs := v :: s.vs, ip := s.ip + 1 }⟩) ∧
    exec (.push none) ⟨w, s⟩ = .next ⟨w, s.faulted .emptyOperand 0⟩ ∧
    (∀ k : Byte, s.params.vsDepth = some s.vsp →
      exec (.push (some k)) ⟨w, s⟩ = .next ⟨w, s.faulted .stackOverflow 0⟩)

/-- R112: STORE pops one Value into the heap cell its operand byte selects; every other cell reads as
before, nothing but the stack, the heap and `ip` changes, and the heap keeps its canonical form. -/
def Obligations.StoreRule : Prop :=
  FormatK .store 0x02 ∧ ∀ (w : Nat) (s : StateAt w),
    (∀ (k : Byte) (v : Value w) (rest : List (Value w)), s.vs = v :: rest →
      ∃ h : Memory w, exec (.store (some k)) ⟨w, s⟩ =
        .next ⟨w, { s with vs := rest, heap := h, ip := s.ip + 1 }⟩ ∧
        Memory.read h (heapAddress k) = some v ∧
        (∀ a, a ≠ heapAddress k → Memory.read h a = Memory.read s.heap a) ∧
        (Memory.wf s.heap → Memory.wf h)) ∧
    exec (.store none) ⟨w, s⟩ = .next ⟨w, s.faulted .emptyOperand 0⟩ ∧
    (∀ k : Byte, s.vs = [] → exec (.store (some k)) ⟨w, s⟩ = .next ⟨w, s.faulted .emptyStack 0⟩)

/-- R113: LOAD pushes the Value of the heap cell its operand byte selects; an address never stored is an
error that carries the address; the errors in their order. The heap is not changed. Right after `RUN` is
accepted, whatever the heap held, no address is stored. -/
def Obligations.LoadRule : Prop :=
  FormatK .load 0x03 ∧ ∀ (w : Nat) (s : StateAt w),
    (∀ (k : Byte) (v : Value w), Memory.read s.heap (heapAddress k) = some v →
      s.params.vsDepth ≠ some s.vsp →
      exec (.load (some k)) ⟨w, s⟩ = .next ⟨w, { s with vs := v :: s.vs, ip := s.ip + 1 }⟩) ∧
    exec (.load none) ⟨w, s⟩ = .next ⟨w, s.faulted .emptyOperand 0⟩ ∧
    (∀ k : Byte, Memory.read s.heap (heapAddress k) = none →
      exec (.load (some k)) ⟨w, s⟩ =
        .next ⟨w, s.faulted .notFoundAddressInStore (BitVec.ofNat _ k.toNat)⟩) ∧
    (∀ (k : Byte) (v : Value w), Memory.read s.heap (heapAddress k) = some v →
      s.params.vsDepth = some s.vsp →
      exec (.load (some k)) ⟨w, s⟩ = .next ⟨w, s.faulted .stackOverflow 0⟩) ∧
    (∀ (k : Byte) (rest : List HostSlot), s.busy = false → s.imemValid = true →
      s.host = .event (.command .run) :: rest →
      ∃ t, step ⟨w, s⟩ = .next ⟨w, t⟩ ∧ t.ip = 0 ∧
        exec (.load (some k)) ⟨w, t⟩ =
          .next ⟨w, t.faulted .notFoundAddressInStore (BitVec.ofNat _ k.toNat)⟩)

/-- R50 (b): a LOAD of an address returns the Value of the most recent STORE to it, across a STORE to
another address in between. -/
def Obligations.LoadAfterStores : Prop :=
  ∀ (w : Nat) (s : StateAt w) (k j : Byte) (v u : Value w) (rest : List (Value w)),
    s.vs = v :: u :: rest → s.vsFits → j ≠ k →
    ∃ s₁ s₂ s₃, exec (.store (some k)) ⟨w, s⟩ = .next ⟨w, s₁⟩ ∧
      exec (.store (some j)) ⟨w, s₁⟩ = .next ⟨w, s₂⟩ ∧
      exec (.load (some k)) ⟨w, s₂⟩ = .next ⟨w, s₃⟩ ∧ s₃.vs = v :: rest

/-! ### Arithmetic -/

/-- R121, R122, R123 with R126: ADD, SUB and MUL push the low `VLEN` bits of the exact sum, of second
minus first, of the exact product. -/
def Obligations.AddSubMulRule : Prop :=
  TwoOperand .add 0x10 (fun a b v => IsWrap (a.toInt + b.toInt) v) ∧
  TwoOperand .sub 0x11 (fun a b v => IsWrap (a.toInt - b.toInt) v) ∧
  TwoOperand .mul 0x12 (fun a b v => IsWrap (a.toInt * b.toInt) v)

/-- R124 and R125 with R128: DIV pushes the quotient of second by first rounded toward zero, MOD what
that quotient leaves; a divisor of 0 raises `DivideByZero`, after the pops. -/
def Obligations.DivModRule : Prop :=
  TwoOperandDivide .div 0x13 (fun a b v =>
    ∃ q : Int, IsTruncatedQuotient a.toInt b.toInt q ∧ IsWrap q v) ∧
  TwoOperandDivide .mod 0x14 (fun a b v =>
    ∃ q : Int, IsTruncatedQuotient a.toInt b.toInt q ∧ IsWrap (a.toInt - q * b.toInt) v)

/-- R127 at every width: for a divisor that is not 0 the remainder's magnitude is below the divisor's,
it is 0 or has the dividend's sign, the dividend is quotient times divisor plus remainder modulo
`2^w`, and the quotient is exact but for `MIN / -1`, which wraps to `MIN` and leaves 0. -/
def Obligations.DivisionLaws : Prop :=
  ∀ (w : Nat) (a b : BitVec w), 2 ≤ w → b ≠ 0 →
    |(Alu.mod a b).toInt| < |b.toInt| ∧
    ((Alu.mod a b).toInt = 0 ∨ ((Alu.mod a b).toInt < 0 ↔ a.toInt < 0)) ∧
    a = Alu.div a b * b + Alu.mod a b ∧
    (¬ (a = BitVec.intMin w ∧ b.toInt = -1) →
      (Alu.div a b).toInt * b.toInt + (Alu.mod a b).toInt = a.toInt) ∧
    (b.toInt = -1 → Alu.div (BitVec.intMin w) b = BitVec.intMin w ∧ Alu.mod (BitVec.intMin w) b = 0)

/-- R126 at every width: an exact result that fits is the result; `MAX + 1 = MIN` and `MIN - 1 = MAX`;
`MIN * (-1) = MIN`. -/
def Obligations.WrapLaws : Prop :=
  ∀ (w : Nat) (a b : BitVec w), 2 ≤ w →
    (-(2 ^ (w - 1)) ≤ a.toInt + b.toInt → a.toInt + b.toInt < 2 ^ (w - 1) →
      (Alu.add a b).toInt = a.toInt + b.toInt) ∧
    (-(2 ^ (w - 1)) ≤ a.toInt - b.toInt → a.toInt - b.toInt < 2 ^ (w - 1) →
      (Alu.sub a b).toInt = a.toInt - b.toInt) ∧
    (-(2 ^ (w - 1)) ≤ a.toInt * b.toInt → a.toInt * b.toInt < 2 ^ (w - 1) →
      (Alu.mul a b).toInt = a.toInt * b.toInt) ∧
    (b.toInt = 1 → Alu.add (BitVec.intMax w) b = BitVec.intMin w ∧
      Alu.sub (BitVec.intMin w) b = BitVec.intMax w) ∧
    (b.toInt = -1 → Alu.mul (BitVec.intMin w) b = BitVec.intMin w)

/-! ### Bitwise and shift -/

/-- R136, R137, R138 with R135: bit `j` of the result depends only on bit `j` of the operands. -/
def Obligations.AndOrXorRule : Prop :=
  TwoOperand .and 0x18 (fun a b v => ∀ j, v.getLsbD j = (a.getLsbD j && b.getLsbD j)) ∧
  TwoOperand .or 0x19 (fun a b v => ∀ j, v.getLsbD j = (a.getLsbD j || b.getLsbD j)) ∧
  TwoOperand .xor 0x1A (fun a b v => ∀ j, v.getLsbD j = (a.getLsbD j ^^ b.getLsbD j))

/-- R139: NOT replaces the popped Value by its bitwise complement, which is `-a - 1`. -/
def Obligations.NotRule : Prop :=
  FormatN .not 0x1B ∧ ∀ (o : Operand) (w : Nat) (s : StateAt w),
    (∀ a rest, Config.vlenWf w = true → s.vs = a :: rest → s.vsFits →
      ∃ v : Value w, (∀ j, j < w → v.getLsbD j = !a.getLsbD j) ∧ v.toInt = -a.toInt - 1 ∧
        exec (.not o) ⟨w, s⟩ = .next ⟨w, { s with vs := v :: rest, ip := s.ip + 1 }⟩) ∧
    (s.vs = [] → exec (.not o) ⟨w, s⟩ = .next ⟨w, s.faulted .emptyStack 0⟩)

/-- R140, R141, R142: the amount is the number in the low `SHAMT_BITS` bits of the first operand (bits 5 to
0 at `VLEN = 64`), which is that operand's unsigned reading modulo `VLEN`; LSF drops the bits shifted out
at the top; RSF is the floor of the second operand divided by the power of two. -/
def Obligations.ShiftRule : Prop :=
  TwoOperand .lsf 0x1C (@fun w a b v =>
    v.toNat = a.toNat * 2 ^ (b.extractLsb' 0 (Config.shamtBits w)).toNat % 2 ^ w ∧
    (b.extractLsb' 0 (Config.shamtBits w)).toNat = b.toNat % w) ∧
  TwoOperand .rsf 0x1D (@fun w a b v =>
    v.toInt * 2 ^ (b.extractLsb' 0 (Config.shamtBits w)).toNat ≤ a.toInt ∧
    a.toInt < (v.toInt + 1) * 2 ^ (b.extractLsb' 0 (Config.shamtBits w)).toNat)

/-- R140 and R141 bit by bit, at every width: LSF lets zeros enter at bit 0, RSF copies of the sign bit
at the top. -/
def Obligations.ShiftBits : Prop :=
  ∀ (w : Nat) (a b : BitVec w) (j : Nat), j < w →
    (Alu.lsf a b).getLsbD j = (decide (b.toNat % w ≤ j) && a.getLsbD (j - b.toNat % w)) ∧
    (Alu.rsf a b).getLsbD j =
      (if j + b.toNat % w < w then a.getLsbD (j + b.toNat % w) else a.msb)

/-! ### Comparison -/

/-- R151 to R155 with R150: a comparison pushes exactly 1 or exactly 0, by the signed relation of second
to first. -/
def Obligations.CompareRule : Prop :=
  TwoOperand .eq 0x20 (fun a b v => v.toInt = if a.toInt = b.toInt then 1 else 0) ∧
  TwoOperand .gt 0x21 (fun a b v => v.toInt = if a.toInt > b.toInt then 1 else 0) ∧
  TwoOperand .lt 0x22 (fun a b v => v.toInt = if a.toInt < b.toInt then 1 else 0) ∧
  TwoOperand .gte 0x23 (fun a b v => v.toInt = if a.toInt ≥ b.toInt then 1 else 0) ∧
  TwoOperand .lte 0x24 (fun a b v => v.toInt = if a.toInt ≤ b.toInt then 1 else 0)

/-- R154 and R155, their corner cases at every width: `GTE(a, b) = 1 - LT(a, b)` and
`LTE(a, b) = 1 - GT(a, b)`; and EQ is GTE and LTE at once. -/
def Obligations.CompareLaws : Prop :=
  ∀ (w : Nat) (a b : BitVec w),
    Alu.gte a b = 1 - Alu.lt a b ∧ Alu.lte a b = 1 - Alu.gt a b ∧
    Alu.eq a b = Alu.and (Alu.gte a b) (Alu.lte a b)

/-! ### Control transfer -/

/-- R160: PROC skips the body it heads. -/
def Obligations.ProcRule : Prop :=
  FormatK .proc 0x28 ∧ ∀ (w : Nat) (s : StateAt w),
    (∀ n : Byte, exec (.proc (some n)) ⟨w, s⟩ =
      .next ⟨w, { s with ip := s.ip + BitVec.ofNat _ n.toNat + 1 }⟩) ∧
    exec (.proc none) ⟨w, s⟩ = .next ⟨w, s.faulted .emptyOperand 0⟩

/-- R161: CALL pushes the index after it and goes one past the index its operand names. -/
def Obligations.CallRule : Prop :=
  FormatK .call 0x29 ∧ ∀ (w : Nat) (s : StateAt w),
    (∀ n : Byte, s.params.csDepth ≠ some s.csp →
      exec (.call (some n)) ⟨w, s⟩ =
        .next ⟨w, { s with cs := (s.ip + 1) :: s.cs, ip := BitVec.ofNat _ (n.toNat + 1) }⟩) ∧
    exec (.call none) ⟨w, s⟩ = .next ⟨w, s.faulted .emptyOperand 0⟩ ∧
    (∀ n : Byte, s.params.csDepth = some s.csp →
      exec (.call (some n)) ⟨w, s⟩ = .next ⟨w, s.faulted .callStackOverflow 0⟩)

/-- R162: RET goes to the newest frame's pointer and removes the frame. -/
def Obligations.RetRule : Prop :=
  FormatN .ret 0x2A ∧ ∀ (o : Operand) (w : Nat) (s : StateAt w),
    (∀ p rest, s.cs = p :: rest → exec (.ret o) ⟨w, s⟩ = .next ⟨w, { s with cs := rest, ip := p }⟩) ∧
    (s.cs = [] → exec (.ret o) ⟨w, s⟩ = .next ⟨w, s.faulted .emptyCallStack 0⟩)

/-- R163: JMP goes to the index its operand names, absolute. -/
def Obligations.JmpRule : Prop :=
  FormatK .jmp 0x2C ∧ ∀ (w : Nat) (s : StateAt w),
    (∀ n : Byte, exec (.jmp (some n)) ⟨w, s⟩ = .next ⟨w, { s with ip := BitVec.ofNat _ n.toNat }⟩) ∧
    exec (.jmp none) ⟨w, s⟩ = .next ⟨w, s.faulted .emptyOperand 0⟩

/-- R164: JIF pops the condition and then the target, both in every case; it goes to the target, its bits
read unsigned, when the condition is 0, and falls through when it is not; its operand byte does not
matter. -/
def Obligations.JifRule : Prop :=
  FormatK .jif 0x2D ∧ ∀ (o : Operand) (w : Nat) (s : StateAt w),
    (∀ c t rest, s.vs = c :: t :: rest → c.toInt = 0 →
      ∃ p : Pointer w, p.toNat = t.toNat ∧
        exec (.jif o) ⟨w, s⟩ = .next ⟨w, { s with vs := rest, ip := p }⟩) ∧
    (∀ c t rest, s.vs = c :: t :: rest → c.toInt ≠ 0 →
      exec (.jif o) ⟨w, s⟩ = .next ⟨w, { s with vs := rest, ip := s.ip + 1 }⟩) ∧
    (s.vs.length < 2 → exec (.jif o) ⟨w, s⟩ = .next ⟨w, s.faulted .emptyStack 0⟩)

/-- R166 with R161 and R162: a CALL followed at the body's end by RET comes back to the instruction after
the CALL with the call stack as it was, whatever the body left on the value stack and in the heap. -/
def Obligations.CallThenRet : Prop :=
  ∀ (w : Nat) (s : StateAt w) (n : Byte) (o : Operand), s.params.csDepth ≠ some s.csp →
    ∃ t, exec (.call (some n)) ⟨w, s⟩ = .next ⟨w, t⟩ ∧ t.ip = BitVec.ofNat _ (n.toNat + 1) ∧
      ∀ u : StateAt w, u.cs = t.cs →
        exec (.ret o) ⟨w, u⟩ = .next ⟨w, { u with cs := s.cs, ip := s.ip + 1 }⟩

/-! ### System -/

/-- R175 with R27: DBG pops one Value, appends the event of `ip` and that Value to the debug log and falls
through; its operand byte does not matter. -/
def Obligations.DbgRule : Prop :=
  FormatK .dbg 0xFE ∧ ∀ (o : Operand) (w : Nat) (s : StateAt w),
    (∀ v rest, s.vs = v :: rest →
      exec (.dbg o) ⟨w, s⟩ =
        .next ⟨w, { s with vs := rest, dbgLog := s.dbgLog ++ [⟨s.ip, v⟩], ip := s.ip + 1 }⟩) ∧
    (s.vs = [] → exec (.dbg o) ⟨w, s⟩ = .next ⟨w, s.faulted .emptyStack 0⟩)

/-- R176: EXIT halts at once, whatever the stacks and the heap hold; `ip` and everything else stay. -/
def Obligations.ExitRule : Prop :=
  FormatN .exit 0xFF ∧ ∀ (o : Operand) (w : Nat) (s : StateAt w),
    exec (.exit o) ⟨w, s⟩ = .next ⟨w, { s with status := .done }⟩
end

