-- ==== Sys2Proof/Laws/Alu.lean ====
section
/-! SUPPORT. The readings of the ALU's results as integers and as bits, for every width. -/

namespace Sys2Proof.Machine

variable {w : Nat}

/-- The unsigned reading of `wrap z` is `z mod 2^w` (R6). -/
theorem wrap_toNat (z : Int) : ((wrap z : BitVec w).toNat : Int) = z % 2 ^ w := by
  simp only [wrap, BitVec.toNat_ofInt]
  have h : (0 : Int) < 2 ^ w := by positivity
  rw [Int.toNat_of_nonneg (by simpa using Int.emod_nonneg z (ne_of_gt h))]
  simp

/-- Wrapping does nothing to an integer that fits. -/
theorem wrap_toInt_of_fits (z : Int) (hw : 0 < w) (h : -(2 ^ (w - 1)) ≤ z) (h' : z < 2 ^ (w - 1)) :
    (wrap z : BitVec w).toInt = z := by
  obtain ⟨n, rfl⟩ : ∃ n, w = n + 1 := ⟨w - 1, by omega⟩
  simp only [wrap, BitVec.toInt_ofInt]
  simp only [Nat.add_sub_cancel] at h h'
  rw [Int.bmod_eq_of_le_mul_two] <;> push_cast [pow_succ] <;> omega

namespace Alu

@[simp] theorem narrow_eq (z : Int) : (narrow z : BitVec w) = wrap z := rfl

theorem add_eq (a b : BitVec w) : add a b = a + b := by
  simp [add, wrap, BitVec.ofInt_add]

theorem sub_eq (a b : BitVec w) : sub a b = a - b := by
  apply BitVec.eq_of_toInt_eq
  simp [sub, wrap, BitVec.toInt_sub]

theorem mul_eq (a b : BitVec w) : mul a b = a * b := by
  simp [mul, wrap, BitVec.ofInt_mul]

@[simp] theorem shiftAmount_eq (b : BitVec w) : shiftAmount b = b.toNat % w := rfl

end Alu

/-- The Value a comparison pushes, read as a signed integer. -/
theorem truthValue_toInt (hw : 1 < w) (p : Bool) :
    (truthValue p : BitVec w).toInt = if p then 1 else 0 := by
  cases p
  · simp [truthValue]
  · have h2 : 2 ^ 2 ≤ 2 ^ w := Nat.pow_le_pow_right (by omega) (by omega)
    have h1 : 1 % 2 ^ w = 1 := Nat.mod_eq_of_lt (by omega)
    simp only [truthValue, if_true, BitVec.toInt, BitVec.toNat_ofNat, h1]
    rw [if_pos (by omega)]
    rfl

end Sys2Proof.Machine
end

