-- ==== Sys2Proof/Laws/Decode.lean ====
section
/-! SUPPORT. What the opcode map holds, and the equations of the decoder and the encoder. -/

namespace Sys2Proof

/-- The map selects, for the opcode byte of an instruction, that instruction's constructor. -/
theorem lookup_opcodeByte (i : Instr) : ∃ make, lookup i.opcodeByte = some make ∧ make i.operand = i := by
  cases i <;> exact ⟨_, rfl, rfl⟩

/-- An operand-bearing opcode byte is that of an instruction whose well-formed operand field is present. -/
theorem bearing_opcodeByte {i : Instr} (h : i.wellFormed = true) :
    bearing i.opcodeByte = i.operand.isSome := by
  cases i with | _ o => cases o <;> first | rfl | exact absurd h Bool.false_ne_true

theorem opcodeByte_mem {b : Byte} {make : Operand → Instr} (h : lookup b = some make) :
    ∃ r ∈ opcodeTable, r.byte = b ∧ r.make = make := by
  unfold lookup at h
  cases hf : opcodeTable.find? (fun r => decide (r.byte = b)) with
  | none => simp [hf] at h
  | some r =>
    refine ⟨r, List.mem_of_find?_eq_some hf, ?_, by simpa [hf] using h⟩
    simpa using List.find?_some hf

/-- What the map answers for a byte: an instruction with that opcode byte and the operand field given. -/
theorem lookup_some {b : Byte} {make : Operand → Instr} (h : lookup b = some make) (o : Operand) :
    (make o).opcodeByte = b ∧ (make o).operand = o ∧
      (make o).wellFormed = (if bearing b then o.isSome else o.isNone) := by
  obtain ⟨r, hr, rfl, rfl⟩ := opcodeByte_mem h
  simp only [opcodeTable, List.cons_append, List.nil_append, List.mem_cons, List.not_mem_nil,
    or_false] at hr
  rcases hr with rfl | rfl | rfl | rfl | rfl | rfl | rfl | rfl | rfl | rfl | rfl | rfl | rfl | rfl |
    rfl | rfl | rfl | rfl | rfl | rfl | rfl | rfl | rfl | rfl | rfl | rfl | rfl <;>
  exact ⟨rfl, rfl, rfl⟩

/-- Decoding at a byte that is no opcode (R72). -/
theorem decode_invalid {b : Byte} (rest : List Byte) (h : isOpcode b = false) :
    decode (b :: rest) = .error (.invalidOpcode b) := by
  simp only [isOpcode, Option.isSome_eq_false_iff, Option.isNone_iff_eq_none] at h
  simp [decode, h]

@[simp] theorem encode_length (i : Instr) : (encode i).length = 1 + i.operand.toList.length := by
  simp [encode, Nat.add_comm]

@[simp] theorem encodeSeq_nil : encodeSeq [] = [] := rfl

@[simp] theorem encodeSeq_append (l m : List Instr) : encodeSeq (l ++ m) = encodeSeq l ++ encodeSeq m := by
  simp [encodeSeq]

@[simp] theorem encodeSeq_cons (i : Instr) (l : List Instr) :
    encodeSeq (i :: l) = encode i ++ encodeSeq l := by
  simp [encodeSeq]

end Sys2Proof
end

