-- ==== Sys2Proof/Laws/Heap.lean ====
section
/-! SUPPORT. The laws of the heap's list of stored cells: a read after a write, and the canonical form. -/

namespace Sys2Proof.Machine

variable {w : Nat}

@[simp] theorem Memory.read_empty (a : Nat) : Memory.read ([] : Memory w) a = none := rfl

/-- A read of the address just written gives the Value written. -/
@[simp] theorem Memory.read_write_same (m : Memory w) (a : Nat) (v : Value w) :
    Memory.read (Memory.write m a v) a = some v := by
  induction m with
  | nil => simp [Memory.write, Memory.read]
  | cons c m ih =>
    obtain ⟨k, u⟩ := c
    simp only [Memory.write]
    split
    · simp [Memory.read]
    · split
      · simp [Memory.read]
      · have hne : k ≠ a := by omega
        simp [Memory.read, hne, ih]

/-- A write leaves every other address alone. -/
theorem Memory.read_write_other (m : Memory w) (a b : Nat) (v : Value w) (h : b ≠ a) :
    Memory.read (Memory.write m a v) b = Memory.read m b := by
  induction m with
  | nil => simp [Memory.write, Memory.read, Ne.symm h]
  | cons c m ih =>
    obtain ⟨k, u⟩ := c
    simp only [Memory.write]
    split
    · simp [Memory.read, Ne.symm h]
    · split
      · subst a; simp [Memory.read, Ne.symm h]
      · simp [Memory.read, ih]

/-- A cell after a write is the cell written or a cell from before. -/
theorem Memory.mem_write {m : Memory w} {a : Nat} {v : Value w} {c : Nat × Value w}
    (h : c ∈ Memory.write m a v) : c = (a, v) ∨ c ∈ m := by
  induction m with
  | nil => simpa [Memory.write] using h
  | cons d m ih =>
    obtain ⟨k, u⟩ := d
    simp only [Memory.write] at h
    split at h
    · simpa using h
    · split at h
      · simp only [List.mem_cons] at h ⊢; tauto
      · simp only [List.mem_cons] at h ⊢; tauto

/-- A write of a heap cell keeps the canonical form. -/
theorem Memory.write_wf {m : Memory w} (h : Memory.wf m) (a : Nat) (v : Value w)
    (ha : a < Config.heapSize) : Memory.wf (Memory.write m a v) := by
  refine ⟨?_, fun c hc => ?_⟩
  · have hp := h.1
    clear h
    induction m with
    | nil => simp [Memory.write]
    | cons d m ih =>
      obtain ⟨k, u⟩ := d
      rw [List.pairwise_cons] at hp
      simp only [Memory.write]
      split
      · rename_i hlt
        refine List.pairwise_cons.2 ⟨fun c hc => ?_, List.pairwise_cons.2 hp⟩
        rcases List.mem_cons.1 hc with rfl | hc
        · exact hlt
        · exact lt_trans hlt (hp.1 c hc)
      · split
        · rename_i heq
          subst heq
          exact List.pairwise_cons.2 ⟨fun c hc => hp.1 c hc, hp.2⟩
        · refine List.pairwise_cons.2 ⟨fun c hc => ?_, ih hp.2⟩
          rcases Memory.mem_write hc with rfl | hc
          · show k < a; omega
          · exact hp.1 c hc
  · rcases Memory.mem_write hc with rfl | hc
    · exact ha
    · exact h.2 c hc

/-- The empty heap of reset and of RUN is in canonical form. -/
theorem Memory.empty_wf : Memory.wf ([] : Memory w) := ⟨List.Pairwise.nil, by simp⟩

/-- Every operand byte names a heap cell (R41). -/
theorem heapAddress_lt (k : Byte) : k.toNat < Config.heapSize := k.isLt

end Sys2Proof.Machine
end

