-- ==== Sys2Proof/Laws/State.lean ====
section
/-! SUPPORT. One lemma per field per named update of the state, so that no proof unfolds an update. -/

namespace Sys2Proof.Machine

variable {w : Nat}

variable (s : StateAt w)

@[simp] theorem fallThrough_ip : (fallThrough s).ip = s.ip + 1 := rfl
@[simp] theorem fallThrough_vs : (fallThrough s).vs = s.vs := rfl
@[simp] theorem fallThrough_cs : (fallThrough s).cs = s.cs := rfl
@[simp] theorem fallThrough_heap : (fallThrough s).heap = s.heap := rfl
@[simp] theorem fallThrough_prog : (fallThrough s).prog = s.prog := rfl
@[simp] theorem fallThrough_dpos : (fallThrough s).dpos = s.dpos := rfl
@[simp] theorem fallThrough_imem : (fallThrough s).imem = s.imem := rfl
@[simp] theorem fallThrough_imemValid : (fallThrough s).imemValid = s.imemValid := rfl
@[simp] theorem fallThrough_status : (fallThrough s).status = s.status := rfl
@[simp] theorem fallThrough_errKind : (fallThrough s).errKind = s.errKind := rfl
@[simp] theorem fallThrough_errIpValid : (fallThrough s).errIpValid = s.errIpValid := rfl
@[simp] theorem fallThrough_errIp : (fallThrough s).errIp = s.errIp := rfl
@[simp] theorem fallThrough_errInfo : (fallThrough s).errInfo = s.errInfo := rfl
@[simp] theorem fallThrough_dbgLog : (fallThrough s).dbgLog = s.dbgLog := rfl
@[simp] theorem fallThrough_params : (fallThrough s).params = s.params := rfl
@[simp] theorem fallThrough_host : (fallThrough s).host = s.host := rfl

@[simp] theorem redirect_ip (p : Pointer w) : (redirect p s).ip = p := rfl
@[simp] theorem redirect_vs (p : Pointer w) : (redirect p s).vs = s.vs := rfl
@[simp] theorem redirect_cs (p : Pointer w) : (redirect p s).cs = s.cs := rfl
@[simp] theorem redirect_heap (p : Pointer w) : (redirect p s).heap = s.heap := rfl
@[simp] theorem redirect_prog (p : Pointer w) : (redirect p s).prog = s.prog := rfl
@[simp] theorem redirect_dpos (p : Pointer w) : (redirect p s).dpos = s.dpos := rfl
@[simp] theorem redirect_imem (p : Pointer w) : (redirect p s).imem = s.imem := rfl
@[simp] theorem redirect_imemValid (p : Pointer w) : (redirect p s).imemValid = s.imemValid := rfl
@[simp] theorem redirect_status (p : Pointer w) : (redirect p s).status = s.status := rfl
@[simp] theorem redirect_errKind (p : Pointer w) : (redirect p s).errKind = s.errKind := rfl
@[simp] theorem redirect_errIpValid (p : Pointer w) : (redirect p s).errIpValid = s.errIpValid := rfl
@[simp] theorem redirect_errIp (p : Pointer w) : (redirect p s).errIp = s.errIp := rfl
@[simp] theorem redirect_errInfo (p : Pointer w) : (redirect p s).errInfo = s.errInfo := rfl
@[simp] theorem redirect_dbgLog (p : Pointer w) : (redirect p s).dbgLog = s.dbgLog := rfl
@[simp] theorem redirect_params (p : Pointer w) : (redirect p s).params = s.params := rfl
@[simp] theorem redirect_host (p : Pointer w) : (redirect p s).host = s.host := rfl

@[simp] theorem halt_ip : (halt s).ip = s.ip := rfl
@[simp] theorem halt_vs : (halt s).vs = s.vs := rfl
@[simp] theorem halt_cs : (halt s).cs = s.cs := rfl
@[simp] theorem halt_heap : (halt s).heap = s.heap := rfl
@[simp] theorem halt_prog : (halt s).prog = s.prog := rfl
@[simp] theorem halt_dpos : (halt s).dpos = s.dpos := rfl
@[simp] theorem halt_imem : (halt s).imem = s.imem := rfl
@[simp] theorem halt_imemValid : (halt s).imemValid = s.imemValid := rfl
@[simp] theorem halt_status : (halt s).status = .done := rfl
@[simp] theorem halt_errKind : (halt s).errKind = s.errKind := rfl
@[simp] theorem halt_errIpValid : (halt s).errIpValid = s.errIpValid := rfl
@[simp] theorem halt_errIp : (halt s).errIp = s.errIp := rfl
@[simp] theorem halt_errInfo : (halt s).errInfo = s.errInfo := rfl
@[simp] theorem halt_dbgLog : (halt s).dbgLog = s.dbgLog := rfl
@[simp] theorem halt_params : (halt s).params = s.params := rfl
@[simp] theorem halt_host : (halt s).host = s.host := rfl

@[simp] theorem heapWrite_ip (k : Byte) (v : Value w) : (heapWrite k v s).ip = s.ip := rfl
@[simp] theorem heapWrite_vs (k : Byte) (v : Value w) : (heapWrite k v s).vs = s.vs := rfl
@[simp] theorem heapWrite_cs (k : Byte) (v : Value w) : (heapWrite k v s).cs = s.cs := rfl
@[simp] theorem heapWrite_heap (k : Byte) (v : Value w) : (heapWrite k v s).heap = Memory.write s.heap (heapAddress k) v := rfl
@[simp] theorem heapWrite_prog (k : Byte) (v : Value w) : (heapWrite k v s).prog = s.prog := rfl
@[simp] theorem heapWrite_dpos (k : Byte) (v : Value w) : (heapWrite k v s).dpos = s.dpos := rfl
@[simp] theorem heapWrite_imem (k : Byte) (v : Value w) : (heapWrite k v s).imem = s.imem := rfl
@[simp] theorem heapWrite_imemValid (k : Byte) (v : Value w) : (heapWrite k v s).imemValid = s.imemValid := rfl
@[simp] theorem heapWrite_status (k : Byte) (v : Value w) : (heapWrite k v s).status = s.status := rfl
@[simp] theorem heapWrite_errKind (k : Byte) (v : Value w) : (heapWrite k v s).errKind = s.errKind := rfl
@[simp] theorem heapWrite_errIpValid (k : Byte) (v : Value w) : (heapWrite k v s).errIpValid = s.errIpValid := rfl
@[simp] theorem heapWrite_errIp (k : Byte) (v : Value w) : (heapWrite k v s).errIp = s.errIp := rfl
@[simp] theorem heapWrite_errInfo (k : Byte) (v : Value w) : (heapWrite k v s).errInfo = s.errInfo := rfl
@[simp] theorem heapWrite_dbgLog (k : Byte) (v : Value w) : (heapWrite k v s).dbgLog = s.dbgLog := rfl
@[simp] theorem heapWrite_params (k : Byte) (v : Value w) : (heapWrite k v s).params = s.params := rfl
@[simp] theorem heapWrite_host (k : Byte) (v : Value w) : (heapWrite k v s).host = s.host := rfl

@[simp] theorem debugEmit_ip (v : Value w) : (debugEmit v s).ip = s.ip := rfl
@[simp] theorem debugEmit_vs (v : Value w) : (debugEmit v s).vs = s.vs := rfl
@[simp] theorem debugEmit_cs (v : Value w) : (debugEmit v s).cs = s.cs := rfl
@[simp] theorem debugEmit_heap (v : Value w) : (debugEmit v s).heap = s.heap := rfl
@[simp] theorem debugEmit_prog (v : Value w) : (debugEmit v s).prog = s.prog := rfl
@[simp] theorem debugEmit_dpos (v : Value w) : (debugEmit v s).dpos = s.dpos := rfl
@[simp] theorem debugEmit_imem (v : Value w) : (debugEmit v s).imem = s.imem := rfl
@[simp] theorem debugEmit_imemValid (v : Value w) : (debugEmit v s).imemValid = s.imemValid := rfl
@[simp] theorem debugEmit_status (v : Value w) : (debugEmit v s).status = s.status := rfl
@[simp] theorem debugEmit_errKind (v : Value w) : (debugEmit v s).errKind = s.errKind := rfl
@[simp] theorem debugEmit_errIpValid (v : Value w) : (debugEmit v s).errIpValid = s.errIpValid := rfl
@[simp] theorem debugEmit_errIp (v : Value w) : (debugEmit v s).errIp = s.errIp := rfl
@[simp] theorem debugEmit_errInfo (v : Value w) : (debugEmit v s).errInfo = s.errInfo := rfl
@[simp] theorem debugEmit_dbgLog (v : Value w) : (debugEmit v s).dbgLog = s.dbgLog ++ [⟨s.ip, v⟩] := rfl
@[simp] theorem debugEmit_params (v : Value w) : (debugEmit v s).params = s.params := rfl
@[simp] theorem debugEmit_host (v : Value w) : (debugEmit v s).host = s.host := rfl

@[simp] theorem runFault_ip (e : RunError) : (runFault e s).ip = s.ip := rfl
@[simp] theorem runFault_vs (e : RunError) : (runFault e s).vs = s.vs := rfl
@[simp] theorem runFault_cs (e : RunError) : (runFault e s).cs = s.cs := rfl
@[simp] theorem runFault_heap (e : RunError) : (runFault e s).heap = s.heap := rfl
@[simp] theorem runFault_prog (e : RunError) : (runFault e s).prog = s.prog := rfl
@[simp] theorem runFault_dpos (e : RunError) : (runFault e s).dpos = s.dpos := rfl
@[simp] theorem runFault_imem (e : RunError) : (runFault e s).imem = s.imem := rfl
@[simp] theorem runFault_imemValid (e : RunError) : (runFault e s).imemValid = s.imemValid := rfl
@[simp] theorem runFault_status (e : RunError) : (runFault e s).status = .fault := rfl
@[simp] theorem runFault_errKind (e : RunError) : (runFault e s).errKind = some e.kind := rfl
@[simp] theorem runFault_errIpValid (e : RunError) : (runFault e s).errIpValid = true := rfl
@[simp] theorem runFault_errIp (e : RunError) : (runFault e s).errIp = s.ip := rfl
@[simp] theorem runFault_errInfo (e : RunError) : (runFault e s).errInfo = e.info := rfl
@[simp] theorem runFault_dbgLog (e : RunError) : (runFault e s).dbgLog = s.dbgLog := rfl
@[simp] theorem runFault_params (e : RunError) : (runFault e s).params = s.params := rfl
@[simp] theorem runFault_host (e : RunError) : (runFault e s).host = s.host := rfl

@[simp] theorem decodeFault_ip (kind : ErrKind) (info : Byte) : (decodeFault kind info s).ip = s.ip := rfl
@[simp] theorem decodeFault_vs (kind : ErrKind) (info : Byte) : (decodeFault kind info s).vs = s.vs := rfl
@[simp] theorem decodeFault_cs (kind : ErrKind) (info : Byte) : (decodeFault kind info s).cs = s.cs := rfl
@[simp] theorem decodeFault_heap (kind : ErrKind) (info : Byte) : (decodeFault kind info s).heap = s.heap := rfl
@[simp] theorem decodeFault_prog (kind : ErrKind) (info : Byte) : (decodeFault kind info s).prog = s.prog := rfl
@[simp] theorem decodeFault_dpos (kind : ErrKind) (info : Byte) : (decodeFault kind info s).dpos = s.dpos := rfl
@[simp] theorem decodeFault_imem (kind : ErrKind) (info : Byte) : (decodeFault kind info s).imem = [] := rfl
@[simp] theorem decodeFault_imemValid (kind : ErrKind) (info : Byte) : (decodeFault kind info s).imemValid = false := rfl
@[simp] theorem decodeFault_status (kind : ErrKind) (info : Byte) : (decodeFault kind info s).status = .fault := rfl
@[simp] theorem decodeFault_errKind (kind : ErrKind) (info : Byte) : (decodeFault kind info s).errKind = some kind := rfl
@[simp] theorem decodeFault_errIpValid (kind : ErrKind) (info : Byte) : (decodeFault kind info s).errIpValid = false := rfl
@[simp] theorem decodeFault_errIp (kind : ErrKind) (info : Byte) : (decodeFault kind info s).errIp = 0 := rfl
@[simp] theorem decodeFault_errInfo (kind : ErrKind) (info : Byte) : (decodeFault kind info s).errInfo = zextByte info := rfl
@[simp] theorem decodeFault_dbgLog (kind : ErrKind) (info : Byte) : (decodeFault kind info s).dbgLog = s.dbgLog := rfl
@[simp] theorem decodeFault_params (kind : ErrKind) (info : Byte) : (decodeFault kind info s).params = s.params := rfl
@[simp] theorem decodeFault_host (kind : ErrKind) (info : Byte) : (decodeFault kind info s).host = s.host := rfl

@[simp] theorem clearErrors_ip : (clearErrors s).ip = s.ip := rfl
@[simp] theorem clearErrors_vs : (clearErrors s).vs = s.vs := rfl
@[simp] theorem clearErrors_cs : (clearErrors s).cs = s.cs := rfl
@[simp] theorem clearErrors_heap : (clearErrors s).heap = s.heap := rfl
@[simp] theorem clearErrors_prog : (clearErrors s).prog = s.prog := rfl
@[simp] theorem clearErrors_dpos : (clearErrors s).dpos = s.dpos := rfl
@[simp] theorem clearErrors_imem : (clearErrors s).imem = s.imem := rfl
@[simp] theorem clearErrors_imemValid : (clearErrors s).imemValid = s.imemValid := rfl
@[simp] theorem clearErrors_status : (clearErrors s).status = s.status := rfl
@[simp] theorem clearErrors_errKind : (clearErrors s).errKind = none := rfl
@[simp] theorem clearErrors_errIpValid : (clearErrors s).errIpValid = false := rfl
@[simp] theorem clearErrors_errIp : (clearErrors s).errIp = 0 := rfl
@[simp] theorem clearErrors_errInfo : (clearErrors s).errInfo = 0 := rfl
@[simp] theorem clearErrors_dbgLog : (clearErrors s).dbgLog = s.dbgLog := rfl
@[simp] theorem clearErrors_params : (clearErrors s).params = s.params := rfl
@[simp] theorem clearErrors_host : (clearErrors s).host = s.host := rfl

@[simp] theorem resetMachine_ip : (resetMachine s).ip = 0 := rfl
@[simp] theorem resetMachine_vs : (resetMachine s).vs = [] := rfl
@[simp] theorem resetMachine_cs : (resetMachine s).cs = [] := rfl
@[simp] theorem resetMachine_heap : (resetMachine s).heap = [] := rfl
@[simp] theorem resetMachine_prog : (resetMachine s).prog = [] := rfl
@[simp] theorem resetMachine_dpos : (resetMachine s).dpos = 0 := rfl
@[simp] theorem resetMachine_imem : (resetMachine s).imem = [] := rfl
@[simp] theorem resetMachine_imemValid : (resetMachine s).imemValid = false := rfl
@[simp] theorem resetMachine_status : (resetMachine s).status = .idle := rfl
@[simp] theorem resetMachine_errKind : (resetMachine s).errKind = none := rfl
@[simp] theorem resetMachine_errIpValid : (resetMachine s).errIpValid = false := rfl
@[simp] theorem resetMachine_errIp : (resetMachine s).errIp = 0 := rfl
@[simp] theorem resetMachine_errInfo : (resetMachine s).errInfo = 0 := rfl
@[simp] theorem resetMachine_dbgLog : (resetMachine s).dbgLog = [] := rfl
@[simp] theorem resetMachine_params : (resetMachine s).params = s.params := rfl
@[simp] theorem resetMachine_host : (resetMachine s).host = s.host := rfl

@[simp] theorem StateAt.tick_ip : (s.tick).ip = s.ip := rfl
@[simp] theorem StateAt.tick_vs : (s.tick).vs = s.vs := rfl
@[simp] theorem StateAt.tick_cs : (s.tick).cs = s.cs := rfl
@[simp] theorem StateAt.tick_heap : (s.tick).heap = s.heap := rfl
@[simp] theorem StateAt.tick_prog : (s.tick).prog = s.prog := rfl
@[simp] theorem StateAt.tick_dpos : (s.tick).dpos = s.dpos := rfl
@[simp] theorem StateAt.tick_imem : (s.tick).imem = s.imem := rfl
@[simp] theorem StateAt.tick_imemValid : (s.tick).imemValid = s.imemValid := rfl
@[simp] theorem StateAt.tick_status : (s.tick).status = s.status := rfl
@[simp] theorem StateAt.tick_errKind : (s.tick).errKind = s.errKind := rfl
@[simp] theorem StateAt.tick_errIpValid : (s.tick).errIpValid = s.errIpValid := rfl
@[simp] theorem StateAt.tick_errIp : (s.tick).errIp = s.errIp := rfl
@[simp] theorem StateAt.tick_errInfo : (s.tick).errInfo = s.errInfo := rfl
@[simp] theorem StateAt.tick_dbgLog : (s.tick).dbgLog = s.dbgLog := rfl
@[simp] theorem StateAt.tick_params : (s.tick).params = s.params := rfl
@[simp] theorem StateAt.tick_host : (s.tick).host = s.host.tail := rfl

/-! The counters that are computed from a list. -/

@[simp] theorem StateAt.tick_vsp : s.tick.vsp = s.vsp := rfl
@[simp] theorem StateAt.tick_csp : s.tick.csp = s.csp := rfl
@[simp] theorem StateAt.tick_ilen : s.tick.ilen = s.ilen := rfl
@[simp] theorem StateAt.tick_plen : s.tick.plen = s.plen := rfl
@[simp] theorem runFault_vsp (e : RunError) : (runFault e s).vsp = s.vsp := rfl
@[simp] theorem runFault_csp (e : RunError) : (runFault e s).csp = s.csp := rfl
@[simp] theorem runFault_ilen (e : RunError) : (runFault e s).ilen = s.ilen := rfl
@[simp] theorem runFault_plen (e : RunError) : (runFault e s).plen = s.plen := rfl

end Sys2Proof.Machine
end

