-- ==== Sys2Proof/Laws/Ops.lean ====
section
/-! SUPPORT. For each shared operation, what it answers and when; and the inversion of each ("if it
answers, then …"), which later proofs cite instead of unfolding it. -/

namespace Sys2Proof.Machine

variable {w : Nat}

/-! ### Capacities -/

/-- A counter that leaves room for one more is not at the capacity. -/
theorem full_of_fits_succ {cap : Option Nat} {n : Nat} (h : Config.fits cap (n + 1) = true) :
    Config.full cap n = false := by
  cases cap with
  | none => rfl
  | some c => simp only [Config.fits, decide_eq_true_eq] at h; simp only [Config.full,
      Option.some.injEq, decide_eq_false_iff_not]; omega

/-- A counter within the capacity and not at it leaves room for one more. -/
theorem fits_succ {cap : Option Nat} {n : Nat} (h : Config.fits cap n = true)
    (h' : Config.full cap n = false) : Config.fits cap (n + 1) = true := by
  cases cap with
  | none => rfl
  | some c =>
    simp only [Config.fits, decide_eq_true_eq] at h ⊢
    simp only [Config.full, Option.some.injEq, decide_eq_false_iff_not] at h'
    omega

/-- Fewer entries fit too. -/
theorem fits_mono {cap : Option Nat} {m n : Nat} (h : Config.fits cap n = true) (hm : m ≤ n) :
    Config.fits cap m = true := by
  cases cap with
  | none => rfl
  | some c => simp only [Config.fits, decide_eq_true_eq] at h ⊢; omega

theorem full_iff {cap : Option Nat} {n : Nat} : Config.full cap n = true ↔ cap = some n := by
  simp [Config.full]

theorem not_full_iff {cap : Option Nat} {n : Nat} : Config.full cap n = false ↔ cap ≠ some n := by
  simp [Config.full]

@[simp] theorem full_none (n : Nat) : Config.full none n = false := rfl
@[simp] theorem fits_none (n : Nat) : Config.fits none n = true := rfl

/-! ### Operand, stacks and heap -/

@[simp] theorem operand_none : operand none = .error .emptyOperand := rfl
@[simp] theorem operand_some (k : Byte) : operand (some k) = .ok k := rfl

theorem push_ok {s : StateAt w} (v : Value w) (h : Config.full s.params.vsDepth s.vsp = false) :
    push v s = .ok { s with vs := v :: s.vs } := by simp [push, h]

theorem push_full {s : StateAt w} (v : Value w) (h : Config.full s.params.vsDepth s.vsp = true) :
    push v s = .error .stackOverflow := by simp [push, h]

theorem push_inv {v : Value w} {s t : StateAt w} (h : push v s = .ok t) :
    Config.full s.params.vsDepth s.vsp = false ∧ t = { s with vs := v :: s.vs } := by
  unfold push at h
  split at h
  · cases h
  · rename_i hf; cases h; exact ⟨by simpa using hf, rfl⟩

theorem pop_nil {s : StateAt w} (h : s.vs = []) : pop s = .error .emptyStack := by simp [pop, h]

theorem pop_cons {s : StateAt w} {v : Value w} {rest : List (Value w)} (h : s.vs = v :: rest) :
    pop s = .ok (v, { s with vs := rest }) := by simp [pop, h]

theorem pop_inv {s t : StateAt w} {v : Value w} (h : pop s = .ok (v, t)) :
    ∃ rest, s.vs = v :: rest ∧ t = { s with vs := rest } := by
  unfold pop at h
  split at h
  · cases h
  · cases h; exact ⟨_, ‹_›, rfl⟩

theorem csPush_ok {s : StateAt w} (p : Pointer w) (h : Config.full s.params.csDepth s.csp = false) :
    csPush p s = .ok { s with cs := p :: s.cs } := by simp [csPush, h]

theorem csPush_full {s : StateAt w} (p : Pointer w) (h : Config.full s.params.csDepth s.csp = true) :
    csPush p s = .error .callStackOverflow := by simp [csPush, h]

theorem csPush_inv {p : Pointer w} {s t : StateAt w} (h : csPush p s = .ok t) :
    Config.full s.params.csDepth s.csp = false ∧ t = { s with cs := p :: s.cs } := by
  unfold csPush at h
  split at h
  · cases h
  · rename_i hf; cases h; exact ⟨by simpa using hf, rfl⟩

theorem csPop_nil {s : StateAt w} (h : s.cs = []) : csPop s = .error .emptyCallStack := by
  simp [csPop, h]

theorem csPop_cons {s : StateAt w} {p : Pointer w} {rest : List (Pointer w)} (h : s.cs = p :: rest) :
    csPop s = .ok (p, { s with cs := rest }) := by simp [csPop, h]

theorem csPop_inv {s t : StateAt w} {p : Pointer w} (h : csPop s = .ok (p, t)) :
    ∃ rest, s.cs = p :: rest ∧ t = { s with cs := rest } := by
  unfold csPop at h
  split at h
  · cases h
  · cases h; exact ⟨_, ‹_›, rfl⟩

theorem heapRead_none {s : StateAt w} {k : Byte} (h : Memory.read s.heap k.toNat = none) :
    heapRead k s = .error (.notFoundAddressInStore k) := by simp [heapRead, heapAddress, h]

theorem heapRead_some {s : StateAt w} {k : Byte} {v : Value w} (h : Memory.read s.heap k.toNat = some v) :
    heapRead k s = .ok v := by simp [heapRead, heapAddress, h]

theorem heapRead_inv {s : StateAt w} {k : Byte} {v : Value w} (h : heapRead k s = .ok v) :
    Memory.read s.heap k.toNat = some v := by
  unfold heapRead at h
  split at h
  · cases h
  · cases h; simpa [heapAddress] using ‹_›

/-! ### The end of an instruction -/

@[simp] theorem finish_ok (s t : StateAt w) : finish s (.ok t) = .next ⟨w, t⟩ := rfl
@[simp] theorem finish_error (s : StateAt w) (e : RunError) :
    finish s (.error e) = .next ⟨w, runFault e s⟩ := rfl

/-- An instruction ends in the state its lines answer, or in the entry of the error they raise. -/
theorem finish_inv {s t : StateAt w} {r : Effect w} (h : finish s r = .next ⟨w, t⟩) :
    r = .ok t ∨ ∃ e, r = .error e ∧ t = runFault e s := by
  cases r with
  | ok u => cases h; exact .inl rfl
  | error e => cases h; exact .inr ⟨e, rfl, rfl⟩

/-! ### The two-operand convention (R120) -/

theorem binary_next {op : Value w → Value w → Except RunError (Value w)} {s : StateAt w} {a b v : Value w}
    {rest : List (Value w)} (hs : s.vs = b :: a :: rest) (hv : op a b = .ok v) (hf : s.vsFits) :
    binary op s = .ok { s with vs := v :: rest, ip := s.ip + 1 } := by
  have hroom : Config.full s.params.vsDepth rest.length = false :=
    full_of_fits_succ (fits_mono hf (by simp [StateAt.vsp, hs]))
  simp [binary, bind, Except.bind, pop, hs, hv, push, StateAt.vsp, hroom, fallThrough]

theorem binary_short {op : Value w → Value w → Except RunError (Value w)} {s : StateAt w}
    (h : s.vs.length < 2) : binary op s = .error .emptyStack := by
  rcases hs : s.vs with _ | ⟨b, _ | ⟨a, rest⟩⟩
  · simp [binary, bind, Except.bind, pop, hs]
  · simp [binary, bind, Except.bind, pop, hs]
  · simp [hs] at h

theorem binary_raises {op : Value w → Value w → Except RunError (Value w)} {s : StateAt w} {a b : Value w}
    {e : RunError} {rest : List (Value w)} (hs : s.vs = b :: a :: rest) (hv : op a b = .error e) :
    binary op s = .error e := by
  simp [binary, bind, Except.bind, pop, hs, hv]

/-- Everything a two-operand instruction can do when it completes. -/
theorem binary_inv {op : Value w → Value w → Except RunError (Value w)} {s t : StateAt w}
    (h : binary op s = .ok t) :
    ∃ a b v rest, s.vs = b :: a :: rest ∧ op a b = .ok v ∧
      t = { s with vs := v :: rest, ip := s.ip + 1 } := by
  rcases hs : s.vs with _ | ⟨b, _ | ⟨a, rest⟩⟩
  · simp [binary, bind, Except.bind, pop, hs] at h
  · simp [binary, bind, Except.bind, pop, hs] at h
  · cases hv : op a b with
    | error e => rw [binary_raises hs hv] at h; cases h
    | ok v =>
      refine ⟨a, b, v, rest, rfl, hv, ?_⟩
      cases hp : push v { s with vs := rest } with
      | error e => simp [binary, bind, Except.bind, pop, hs, hv, hp] at h
      | ok u =>
        simp only [binary, bind, Except.bind, pop, hs, hv, hp, Except.ok.injEq] at h
        rw [← h, (push_inv hp).2]
        rfl

end Sys2Proof.Machine
end

