-- ==== Sys2Proof/Laws/Exec.lean ====
section
/-! SUPPORT. Everything an instruction can do, said once (`exec_cases`): it raises an error, or it
completes in the one way `Completed` gives; and, for each instruction, when it does which. -/

namespace Sys2Proof.Machine

variable {w : Nat}

/-- The completion of a two-operand instruction with result `f a b`. -/
def CompletedTwo (f : Value w → Value w → Value w) (s t : StateAt w) : Prop :=
  ∃ a b rest, s.vs = b :: a :: rest ∧ t = { s with vs := f a b :: rest, ip := s.ip + 1 }

/-- How an instruction completes: what it found, and the state it leaves. -/
def Completed (i : Instr) (s t : StateAt w) : Prop :=
  match i with
  | .noop _ => t = { s with ip := s.ip + 1 }
  | .push o => ∃ k, o = some k ∧ Config.full s.params.vsDepth s.vsp = false ∧
      t = { s with vs := zextByte k :: s.vs, ip := s.ip + 1 }
  | .store o => ∃ k v rest, o = some k ∧ s.vs = v :: rest ∧
      t = { s with vs := rest, heap := Memory.write s.heap k.toNat v, ip := s.ip + 1 }
  | .load o => ∃ k v, o = some k ∧ Memory.read s.heap k.toNat = some v ∧
      Config.full s.params.vsDepth s.vsp = false ∧ t = { s with vs := v :: s.vs, ip := s.ip + 1 }
  | .add _ => CompletedTwo Alu.add s t
  | .sub _ => CompletedTwo Alu.sub s t
  | .mul _ => CompletedTwo Alu.mul s t
  | .and _ => CompletedTwo Alu.and s t
  | .or _ => CompletedTwo Alu.or s t
  | .xor _ => CompletedTwo Alu.xor s t
  | .lsf _ => CompletedTwo Alu.lsf s t
  | .rsf _ => CompletedTwo Alu.rsf s t
  | .eq _ => CompletedTwo Alu.eq s t
  | .gt _ => CompletedTwo Alu.gt s t
  | .lt _ => CompletedTwo Alu.lt s t
  | .gte _ => CompletedTwo Alu.gte s t
  | .lte _ => CompletedTwo Alu.lte s t
  | .div _ => CompletedTwo Alu.div s t ∧ ∀ b, s.vs.head? = some b → Alu.divisorIsZero b = false
  | .mod _ => CompletedTwo Alu.mod s t ∧ ∀ b, s.vs.head? = some b → Alu.divisorIsZero b = false
  | .not _ => ∃ a rest, s.vs = a :: rest ∧ t = { s with vs := Alu.not a :: rest, ip := s.ip + 1 }
  | .proc o => ∃ k, o = some k ∧ t = { s with ip := s.ip + toPointer (zextByte k) + 1 }
  | .call o => ∃ k, o = some k ∧ Config.full s.params.csDepth s.csp = false ∧
      t = { s with cs := (s.ip + 1) :: s.cs, ip := toPointer (zextByte k) + 1 }
  | .ret _ => ∃ p rest, s.cs = p :: rest ∧ t = { s with cs := rest, ip := p }
  | .jmp o => ∃ k, o = some k ∧ t = { s with ip := toPointer (zextByte k) }
  | .jif _ => ∃ c p rest, s.vs = c :: p :: rest ∧
      t = { s with vs := rest, ip := if conditionIsZero c then toPointer p else s.ip + 1 }
  | .dbg _ => ∃ v rest, s.vs = v :: rest ∧
      t = { s with vs := rest, dbgLog := s.dbgLog ++ [⟨s.ip, v⟩], ip := s.ip + 1 }
  | .exit _ => t = { s with status := .done }

/-- Every instruction is an effect, ended as `finish` says. -/
theorem exec_finish (i : Instr) (s : StateAt w) : ∃ r, exec i ⟨w, s⟩ = finish s r := by
  cases i <;> first | exact ⟨_, rfl⟩ | exact ⟨.ok _, rfl⟩

/-- Every instruction answers a next state of the same width. -/
theorem exec_next (i : Instr) (s : StateAt w) : ∃ t : StateAt w, exec i ⟨w, s⟩ = .next ⟨w, t⟩ := by
  obtain ⟨r, hr⟩ := exec_finish i s
  rw [hr]
  cases r <;> exact ⟨_, rfl⟩

theorem binaryTotal_inv {f : Value w → Value w → Value w} {s t : StateAt w} (h : binaryTotal f s = .ok t) :
    CompletedTwo f s t := by
  obtain ⟨a, b, v, rest, hs, hv, rfl⟩ := binary_inv h
  cases hv
  exact ⟨a, b, rest, hs, rfl⟩

theorem binaryDivide_inv {f : Value w → Value w → Value w} {s t : StateAt w} (h : binaryDivide f s = .ok t) :
    CompletedTwo f s t ∧ ∀ b, s.vs.head? = some b → Alu.divisorIsZero b = false := by
  obtain ⟨a, b, v, rest, hs, hv, rfl⟩ := binary_inv h
  split at hv
  · cases hv
  · cases hv
    refine ⟨⟨a, b, rest, hs, rfl⟩, fun c hc => ?_⟩
    rename_i hz
    simp only [hs, List.head?_cons, Option.some.injEq] at hc
    subst hc
    simpa using hz

theorem execNoop_cases {o : Operand} {s t : StateAt w} (h : execNoop o ⟨w, s⟩ = .next ⟨w, t⟩) :
    (∃ e, t = runFault e s) ∨ Completed (.noop o) s t := by
  rcases finish_inv (s := s) h with h | ⟨e, _, h⟩
  · refine .inr ?_
    cases h; exact rfl
  · exact .inl ⟨e, h⟩

theorem execPush_cases {o : Operand} {s t : StateAt w} (h : execPush o ⟨w, s⟩ = .next ⟨w, t⟩) :
    (∃ e, t = runFault e s) ∨ Completed (.push o) s t := by
  rcases finish_inv (s := s) h with h | ⟨e, _, h⟩
  · refine .inr ?_
    cases o with
    | none => cases h
    | some k =>
      cases hp : push (zextByte k) s with
      | error e => simp [bind, Except.bind, hp] at h
      | ok u =>
        obtain ⟨hf, rfl⟩ := push_inv hp
        simp only [bind, Except.bind, operand_some, hp, Except.ok.injEq] at h
        exact ⟨k, rfl, hf, h.symm⟩
  · exact .inl ⟨e, h⟩

theorem execStore_cases {o : Operand} {s t : StateAt w} (h : execStore o ⟨w, s⟩ = .next ⟨w, t⟩) :
    (∃ e, t = runFault e s) ∨ Completed (.store o) s t := by
  rcases finish_inv (s := s) h with h | ⟨e, _, h⟩
  · refine .inr ?_
    cases o with
    | none => cases h
    | some k =>
      rcases hs : s.vs with _ | ⟨v, rest⟩
      · simp [bind, Except.bind, pop_nil hs] at h
      · simp only [bind, Except.bind, operand_some, pop_cons hs, Except.ok.injEq] at h
        exact ⟨k, v, rest, rfl, hs, h.symm⟩
  · exact .inl ⟨e, h⟩

theorem execLoad_cases {o : Operand} {s t : StateAt w} (h : execLoad o ⟨w, s⟩ = .next ⟨w, t⟩) :
    (∃ e, t = runFault e s) ∨ Completed (.load o) s t := by
  rcases finish_inv (s := s) h with h | ⟨e, _, h⟩
  · refine .inr ?_
    cases o with
    | none => cases h
    | some k =>
      cases hr : heapRead k s with
      | error e => simp [bind, Except.bind, hr] at h
      | ok v =>
        cases hp : push v s with
        | error e => simp [bind, Except.bind, hr, hp] at h
        | ok u =>
          obtain ⟨hf, rfl⟩ := push_inv hp
          simp only [bind, Except.bind, operand_some, hr, hp, Except.ok.injEq] at h
          exact ⟨k, v, rfl, heapRead_inv hr, hf, h.symm⟩
  · exact .inl ⟨e, h⟩

theorem execAdd_cases {o : Operand} {s t : StateAt w} (h : execAdd o ⟨w, s⟩ = .next ⟨w, t⟩) :
    (∃ e, t = runFault e s) ∨ Completed (.add o) s t := by
  rcases finish_inv (s := s) h with h | ⟨e, _, h⟩
  · exact .inr (binaryTotal_inv h)
  · exact .inl ⟨e, h⟩

theorem execSub_cases {o : Operand} {s t : StateAt w} (h : execSub o ⟨w, s⟩ = .next ⟨w, t⟩) :
    (∃ e, t = runFault e s) ∨ Completed (.sub o) s t := by
  rcases finish_inv (s := s) h with h | ⟨e, _, h⟩
  · exact .inr (binaryTotal_inv h)
  · exact .inl ⟨e, h⟩

theorem execMul_cases {o : Operand} {s t : StateAt w} (h : execMul o ⟨w, s⟩ = .next ⟨w, t⟩) :
    (∃ e, t = runFault e s) ∨ Completed (.mul o) s t := by
  rcases finish_inv (s := s) h with h | ⟨e, _, h⟩
  · exact .inr (binaryTotal_inv h)
  · exact .inl ⟨e, h⟩

theorem execDiv_cases {o : Operand} {s t : StateAt w} (h : execDiv o ⟨w, s⟩ = .next ⟨w, t⟩) :
    (∃ e, t = runFault e s) ∨ Completed (.div o) s t := by
  rcases finish_inv (s := s) h with h | ⟨e, _, h⟩
  · exact .inr (binaryDivide_inv h)
  · exact .inl ⟨e, h⟩

theorem execMod_cases {o : Operand} {s t : StateAt w} (h : execMod o ⟨w, s⟩ = .next ⟨w, t⟩) :
    (∃ e, t = runFault e s) ∨ Completed (.mod o) s t := by
  rcases finish_inv (s := s) h with h | ⟨e, _, h⟩
  · exact .inr (binaryDivide_inv h)
  · exact .inl ⟨e, h⟩

theorem execAnd_cases {o : Operand} {s t : StateAt w} (h : execAnd o ⟨w, s⟩ = .next ⟨w, t⟩) :
    (∃ e, t = runFault e s) ∨ Completed (.and o) s t := by
  rcases finish_inv (s := s) h with h | ⟨e, _, h⟩
  · exact .inr (binaryTotal_inv h)
  · exact .inl ⟨e, h⟩

theorem execOr_cases {o : Operand} {s t : StateAt w} (h : execOr o ⟨w, s⟩ = .next ⟨w, t⟩) :
    (∃ e, t = runFault e s) ∨ Completed (.or o) s t := by
  rcases finish_inv (s := s) h with h | ⟨e, _, h⟩
  · exact .inr (binaryTotal_inv h)
  · exact .inl ⟨e, h⟩

theorem execXor_cases {o : Operand} {s t : StateAt w} (h : execXor o ⟨w, s⟩ = .next ⟨w, t⟩) :
    (∃ e, t = runFault e s) ∨ Completed (.xor o) s t := by
  rcases finish_inv (s := s) h with h | ⟨e, _, h⟩
  · exact .inr (binaryTotal_inv h)
  · exact .inl ⟨e, h⟩

theorem execNot_cases {o : Operand} {s t : StateAt w} (h : execNot o ⟨w, s⟩ = .next ⟨w, t⟩) :
    (∃ e, t = runFault e s) ∨ Completed (.not o) s t := by
  rcases finish_inv (s := s) h with h | ⟨e, _, h⟩
  · refine .inr ?_
    rcases hs : s.vs with _ | ⟨a, rest⟩
    · simp [bind, Except.bind, pop_nil hs] at h
    · cases hp : push (Alu.not a) { s with vs := rest } with
      | error e => simp [bind, Except.bind, pop_cons hs, hp] at h
      | ok u =>
        obtain ⟨hf, rfl⟩ := push_inv hp
        simp only [bind, Except.bind, pop_cons hs, hp, Except.ok.injEq] at h
        exact ⟨a, rest, hs, h.symm⟩
  · exact .inl ⟨e, h⟩

theorem execLsf_cases {o : Operand} {s t : StateAt w} (h : execLsf o ⟨w, s⟩ = .next ⟨w, t⟩) :
    (∃ e, t = runFault e s) ∨ Completed (.lsf o) s t := by
  rcases finish_inv (s := s) h with h | ⟨e, _, h⟩
  · exact .inr (binaryTotal_inv h)
  · exact .inl ⟨e, h⟩

theorem execRsf_cases {o : Operand} {s t : StateAt w} (h : execRsf o ⟨w, s⟩ = .next ⟨w, t⟩) :
    (∃ e, t = runFault e s) ∨ Completed (.rsf o) s t := by
  rcases finish_inv (s := s) h with h | ⟨e, _, h⟩
  · exact .inr (binaryTotal_inv h)
  · exact .inl ⟨e, h⟩

theorem execEq_cases {o : Operand} {s t : StateAt w} (h : execEq o ⟨w, s⟩ = .next ⟨w, t⟩) :
    (∃ e, t = runFault e s) ∨ Completed (.eq o) s t := by
  rcases finish_inv (s := s) h with h | ⟨e, _, h⟩
  · exact .inr (binaryTotal_inv h)
  · exact .inl ⟨e, h⟩

theorem execGt_cases {o : Operand} {s t : StateAt w} (h : execGt o ⟨w, s⟩ = .next ⟨w, t⟩) :
    (∃ e, t = runFault e s) ∨ Completed (.gt o) s t := by
  rcases finish_inv (s := s) h with h | ⟨e, _, h⟩
  · exact .inr (binaryTotal_inv h)
  · exact .inl ⟨e, h⟩

theorem execLt_cases {o : Operand} {s t : StateAt w} (h : execLt o ⟨w, s⟩ = .next ⟨w, t⟩) :
    (∃ e, t = runFault e s) ∨ Completed (.lt o) s t := by
  rcases finish_inv (s := s) h with h | ⟨e, _, h⟩
  · exact .inr (binaryTotal_inv h)
  · exact .inl ⟨e, h⟩

theorem execGte_cases {o : Operand} {s t : StateAt w} (h : execGte o ⟨w, s⟩ = .next ⟨w, t⟩) :
    (∃ e, t = runFault e s) ∨ Completed (.gte o) s t := by
  rcases finish_inv (s := s) h with h | ⟨e, _, h⟩
  · exact .inr (binaryTotal_inv h)
  · exact .inl ⟨e, h⟩

theorem execLte_cases {o : Operand} {s t : StateAt w} (h : execLte o ⟨w, s⟩ = .next ⟨w, t⟩) :
    (∃ e, t = runFault e s) ∨ Completed (.lte o) s t := by
  rcases finish_inv (s := s) h with h | ⟨e, _, h⟩
  · exact .inr (binaryTotal_inv h)
  · exact .inl ⟨e, h⟩

theorem execProc_cases {o : Operand} {s t : StateAt w} (h : execProc o ⟨w, s⟩ = .next ⟨w, t⟩) :
    (∃ e, t = runFault e s) ∨ Completed (.proc o) s t := by
  rcases finish_inv (s := s) h with h | ⟨e, _, h⟩
  · refine .inr ?_
    cases o with
    | none => cases h
    | some k => cases h; exact ⟨k, rfl, rfl⟩
  · exact .inl ⟨e, h⟩

theorem execCall_cases {o : Operand} {s t : StateAt w} (h : execCall o ⟨w, s⟩ = .next ⟨w, t⟩) :
    (∃ e, t = runFault e s) ∨ Completed (.call o) s t := by
  rcases finish_inv (s := s) h with h | ⟨e, _, h⟩
  · refine .inr ?_
    cases o with
    | none => cases h
    | some k =>
      cases hp : csPush (s.ip + 1) s with
      | error e => simp only [bind, Except.bind, operand_some, hp] at h; cases h
      | ok u =>
        obtain ⟨hf, rfl⟩ := csPush_inv hp
        simp only [bind, Except.bind, operand_some, hp, Except.ok.injEq] at h
        exact ⟨k, rfl, hf, h.symm⟩
  · exact .inl ⟨e, h⟩

theorem execRet_cases {o : Operand} {s t : StateAt w} (h : execRet o ⟨w, s⟩ = .next ⟨w, t⟩) :
    (∃ e, t = runFault e s) ∨ Completed (.ret o) s t := by
  rcases finish_inv (s := s) h with h | ⟨e, _, h⟩
  · refine .inr ?_
    rcases hs : s.cs with _ | ⟨p, rest⟩
    · simp [bind, Except.bind, csPop_nil hs] at h
    · simp only [bind, Except.bind, csPop_cons hs, Except.ok.injEq] at h
      exact ⟨p, rest, hs, h.symm⟩
  · exact .inl ⟨e, h⟩

theorem execJmp_cases {o : Operand} {s t : StateAt w} (h : execJmp o ⟨w, s⟩ = .next ⟨w, t⟩) :
    (∃ e, t = runFault e s) ∨ Completed (.jmp o) s t := by
  rcases finish_inv (s := s) h with h | ⟨e, _, h⟩
  · refine .inr ?_
    cases o with
    | none => cases h
    | some k => cases h; exact ⟨k, rfl, rfl⟩
  · exact .inl ⟨e, h⟩

theorem execJif_cases {o : Operand} {s t : StateAt w} (h : execJif o ⟨w, s⟩ = .next ⟨w, t⟩) :
    (∃ e, t = runFault e s) ∨ Completed (.jif o) s t := by
  rcases finish_inv (s := s) h with h | ⟨e, _, h⟩
  · refine .inr ?_
    rcases hs : s.vs with _ | ⟨c, _ | ⟨p, rest⟩⟩
    · simp [bind, Except.bind, pop, hs] at h
    · simp [bind, Except.bind, pop, hs] at h
    · simp only [bind, Except.bind, pop, hs, Except.ok.injEq] at h
      refine ⟨c, p, rest, hs, ?_⟩
      rw [← h]
      split <;> rfl
  · exact .inl ⟨e, h⟩

theorem execDbg_cases {o : Operand} {s t : StateAt w} (h : execDbg o ⟨w, s⟩ = .next ⟨w, t⟩) :
    (∃ e, t = runFault e s) ∨ Completed (.dbg o) s t := by
  rcases finish_inv (s := s) h with h | ⟨e, _, h⟩
  · refine .inr ?_
    rcases hs : s.vs with _ | ⟨v, rest⟩
    · simp [bind, Except.bind, pop_nil hs] at h
    · simp only [bind, Except.bind, pop_cons hs, Except.ok.injEq] at h
      exact ⟨v, rest, hs, h.symm⟩
  · exact .inl ⟨e, h⟩

theorem execExit_cases {o : Operand} {s t : StateAt w} (h : execExit o ⟨w, s⟩ = .next ⟨w, t⟩) :
    (∃ e, t = runFault e s) ∨ Completed (.exit o) s t := by
  rcases finish_inv (s := s) h with h | ⟨e, _, h⟩
  · refine .inr ?_
    cases h; exact rfl
  · exact .inl ⟨e, h⟩

/-- Everything an instruction can do. -/
theorem exec_cases {i : Instr} {s t : StateAt w} (h : exec i ⟨w, s⟩ = .next ⟨w, t⟩) :
    (∃ e, t = runFault e s) ∨ Completed i s t := by
  cases i with
  | noop o => exact execNoop_cases h
  | push o => exact execPush_cases h
  | store o => exact execStore_cases h
  | load o => exact execLoad_cases h
  | add o => exact execAdd_cases h
  | sub o => exact execSub_cases h
  | mul o => exact execMul_cases h
  | div o => exact execDiv_cases h
  | mod o => exact execMod_cases h
  | and o => exact execAnd_cases h
  | or o => exact execOr_cases h
  | xor o => exact execXor_cases h
  | not o => exact execNot_cases h
  | lsf o => exact execLsf_cases h
  | rsf o => exact execRsf_cases h
  | eq o => exact execEq_cases h
  | gt o => exact execGt_cases h
  | lt o => exact execLt_cases h
  | gte o => exact execGte_cases h
  | lte o => exact execLte_cases h
  | proc o => exact execProc_cases h
  | call o => exact execCall_cases h
  | ret o => exact execRet_cases h
  | jmp o => exact execJmp_cases h
  | jif o => exact execJif_cases h
  | dbg o => exact execDbg_cases h
  | exit o => exact execExit_cases h

end Sys2Proof.Machine
end

