-- ==== Sys2Proof/Laws/Elsewhere.lean ====
section
/-! SUPPORT. An instruction neither sees nor changes the program bytes, the decoder's position, the valid
bit and the outside world's schedule: said once, for every instruction. -/

namespace Sys2Proof.Machine

variable {w : Nat}

/-- The state with other contents where no instruction looks. -/
def StateAt.elsewhere (p : List Byte) (d : Nat) (v : Bool) (h : List HostSlot) (s : StateAt w) : StateAt w :=
  { s with prog := p, dpos := d, imemValid := v, host := h }

/-- An outcome with its next state changed, whatever its width. -/
def nextMap (f : {vlen : Nat} → StateAt vlen → StateAt vlen) :
    Host.Outcome State Fault Refusal → Host.Outcome State Fault Refusal
  | .next t => .next ⟨t.vlen, f t.body⟩
  | .fault r => .fault r
  | .refused r => .refused r

theorem exec_elsewhere (i : Instr) (s : StateAt w) (p : List Byte) (d : Nat) (v : Bool) (h : List HostSlot) :
    exec i ⟨w, s.elsewhere p d v h⟩ = nextMap (StateAt.elsewhere p d v h) (exec i ⟨w, s⟩) := by
  obtain ⟨ip, vs, cs, heap, prog, dpos, imem, iv, st, ek, eiv, ei, einfo, log, params, host⟩ := s
  cases i <;> simp only [exec, execNoop, execPush, execStore, execLoad, execAdd, execSub, execMul,
      execDiv, execMod, execAnd, execOr, execXor, execNot, execLsf, execRsf, execEq, execGt, execLt,
      execGte, execLte, execProc, execCall, execRet, execJmp, execJif, execDbg, execExit, binaryTotal,
      binaryDivide]
  case noop => rfl
  case exit => rfl
  case proc o => cases o <;> rfl
  case jmp o => cases o <;> rfl
  case ret => cases cs <;> rfl
  case dbg => cases vs <;> rfl
  case store o => cases o <;> cases vs <;> rfl
  case jif =>
    rcases vs with _|⟨b,_|⟨a,rest⟩⟩
    · rfl
    · rfl
    · simp only [StateAt.elsewhere, pop, bind, Except.bind, finish, nextMap]; split <;> rfl
  case call o =>
    cases o with
    | none => rfl
    | some k =>
      cases hf : Config.full params.csDepth cs.length <;> simp [StateAt.elsewhere, csPush, StateAt.csp, hf,
          bind, Except.bind, finish, nextMap, redirect, runFault]
  case push o =>
    cases o with
    | none => rfl
    | some k =>
      cases hf : Config.full params.vsDepth vs.length <;> simp [StateAt.elsewhere, push, StateAt.vsp, hf,
          bind, Except.bind, finish, nextMap, fallThrough, runFault]
  case load o =>
    cases o with
    | none => rfl
    | some k =>
      cases hm : Memory.read heap (heapAddress k) <;>
      cases hf : Config.full params.vsDepth vs.length <;> simp [StateAt.elsewhere, push, StateAt.vsp, hf, hm,
          heapRead, bind, Except.bind, finish, nextMap, fallThrough, runFault]
  case not =>
    rcases vs with _|⟨b,rest⟩
    · rfl
    · cases hf : Config.full params.vsDepth rest.length <;> simp [StateAt.elsewhere, pop, push, StateAt.vsp,
        hf, bind, Except.bind, finish, nextMap, fallThrough, runFault]
  case div =>
    rcases vs with _|⟨b,_|⟨a,rest⟩⟩
    · rfl
    · rfl
    · cases hd : Alu.divisorIsZero b <;> cases hf : Config.full params.vsDepth rest.length <;> simp
        [StateAt.elsewhere, binary, pop, push, StateAt.vsp, hf, hd, bind, Except.bind, finish, nextMap,
        fallThrough, runFault]
  case mod =>
    rcases vs with _|⟨b,_|⟨a,rest⟩⟩
    · rfl
    · rfl
    · cases hd : Alu.divisorIsZero b <;> cases hf : Config.full params.vsDepth rest.length <;> simp
        [StateAt.elsewhere, binary, pop, push, StateAt.vsp, hf, hd, bind, Except.bind, finish, nextMap,
        fallThrough, runFault]
  all_goals
    rcases vs with _|⟨b,_|⟨a,rest⟩⟩
    · rfl
    · rfl
    · cases hf : Config.full params.vsDepth rest.length <;> simp [StateAt.elsewhere, binary, pop, push,
        StateAt.vsp, hf, bind, Except.bind, finish, nextMap, fallThrough, runFault]

/-- What an instruction does is the same whatever stands where no instruction looks. -/
theorem exec_next_elsewhere {i : Instr} {s t : StateAt w} (hx : exec i ⟨w, s⟩ = .next ⟨w, t⟩) (p : List Byte)
    (d : Nat) (v : Bool) (h : List HostSlot) :
    exec i ⟨w, s.elsewhere p d v h⟩ = .next ⟨w, t.elsewhere p d v h⟩ := by
  rw [exec_elsewhere, hx]; rfl

end Sys2Proof.Machine
end

