-- ==== Sys2Proof/Laws/Step.lean ====
section
/-! SUPPORT. What a step is, said once: an event of the outside world, or the machine's own step; and
where a placed instruction stands. -/

namespace Sys2Proof.Machine

variable {w : Nat}

/-- With no event from outside, a step is the machine's own step and the schedule moves on. -/
theorem step_quiet {s : StateAt w} (h : s.quietNow) : step ⟨w, s⟩ = machineStep s.tick := by
  unfold StateAt.quietNow at h
  cases hh : s.host with
  | nil => simp only [step, hh, StateAt.tick, List.tail_nil]; rw [← hh]
  | cons x xs =>
    simp only [hh, List.head?_cons, reduceCtorEq, Option.some.injEq, false_or] at h
    subst h
    simp only [step, hh, StateAt.tick, List.tail_cons]

/-- With an event from outside, a step is that event. -/
theorem step_event {s : StateAt w} {e : HostEvent} {rest : List HostSlot}
    (h : s.host = .event e :: rest) : step ⟨w, s⟩ = .next ⟨w, hostEvent e { s with host := rest }⟩ := by
  simp [step, h]

/-- Either there is no event from outside now, or there is one. -/
theorem quiet_or_event (s : StateAt w) :
    s.quietNow ∨ ∃ e rest, s.host = .event e :: rest := by
  unfold StateAt.quietNow
  rcases s.host with _ | ⟨_ | e, rest⟩
  · simp
  · simp
  · exact .inr ⟨e, rest, rfl⟩

theorem machineStep_decoding {s : StateAt w} (h : s.status = .decoding) :
    machineStep s = .next ⟨w, decodeStep s⟩ := by simp [machineStep, h]

theorem machineStep_running {s : StateAt w} (h : s.status = .running) : machineStep s = execStep s := by
  simp [machineStep, h]

theorem machineStep_waiting {s : StateAt w} (h : s.busy = false) : machineStep s = .next ⟨w, s⟩ := by
  unfold StateAt.busy at h
  cases hs : s.status <;> simp_all [machineStep]

theorem execStep_fetched {s : StateAt w} {i : Instr} (h : s.imem[s.ip.toNat]? = some i) :
    execStep s = exec i ⟨w, s⟩ := by simp [execStep, fetch, h]

theorem execStep_pastEnd {s : StateAt w} (h : s.ilen ≤ s.ip.toNat) :
    execStep s = .next ⟨w, { s with status := .done }⟩ := by
  simp only [execStep, fetch, List.getElem?_eq_none h]

/-- Everything a decoder step can do. -/
theorem decodeStep_cases (s : StateAt w) :
    (decode (s.prog.drop s.dpos) = .error .endOfProgram ∧
      decodeStep s = { s with imemValid := true, status := .ready }) ∨
    (∃ kind info, kind.isDecodeTime = true ∧ decodeStep s = decodeFault kind info s) ∨
    (∃ i rest, decode (s.prog.drop s.dpos) = .ok (i, rest) ∧
      Config.full s.params.imemDepth s.ilen = false ∧
      decodeStep s = { s with imem := s.imem ++ [i], dpos := s.dpos + (encode i).length }) := by
  unfold decodeStep
  split
  · exact .inl ⟨‹_›, rfl⟩
  · exact .inr (.inl ⟨_, _, rfl, rfl⟩)
  · exact .inr (.inl ⟨_, _, rfl, rfl⟩)
  · rename_i i rest hd
    split
    · exact .inr (.inl ⟨_, _, rfl, rfl⟩)
    · rename_i hf
      exact .inr (.inr ⟨i, rest, hd, by simpa using hf, rfl⟩)

/-- The placed instruction stands at its index. -/
theorem placeAt_get (n : Nat) (i : Instr) (l : List Instr) : (placeAt n i l)[n]? = some i := by
  have h : (l.take n ++ List.replicate (n - l.length) (Instr.noop none)).length = n := by
    simp only [List.length_append, List.length_take, List.length_replicate]; omega
  unfold placeAt
  rw [List.getElem?_append_right (by omega), h, Nat.sub_self]
  rfl

end Sys2Proof.Machine
end

