-- ==== Sys2Proof/Laws/HostPort.lean ====
section
/-! SUPPORT. When a command has its effect, said once. -/

namespace Sys2Proof.Machine

variable {w : Nat}

@[simp] theorem StateAt.busy_host (s : StateAt w) (h : List HostSlot) :
    ({ s with host := h } : StateAt w).busy = s.busy := rfl

@[simp] theorem accepted_host (c : HostCommand) (s : StateAt w) (h : List HostSlot) :
    accepted c { s with host := h } = accepted c s := by cases c <;> rfl

/-- A step in which a command arrives that is accepted. -/
theorem step_accepted {s : StateAt w} {c : HostCommand} {rest : List HostSlot}
    (h : s.host = .event (.command c) :: rest) (ha : accepted c s = true) :
    step ⟨w, s⟩ = .next ⟨w, commandEffect c { s with host := rest }⟩ := by
  rw [step_event h]; simp only [hostEvent, accepted_host, ha, if_true]

/-- A step in which a command arrives that is ignored. -/
theorem step_ignored {s : StateAt w} {c : HostCommand} {rest : List HostSlot}
    (h : s.host = .event (.command c) :: rest) (ha : accepted c s = false) :
    step ⟨w, s⟩ = .next ⟨w, { s with host := rest }⟩ := by
  rw [step_event h]; simp only [hostEvent, accepted_host, ha, Bool.false_eq_true, if_false]

/-- A busy machine accepts nothing (R213). -/
theorem accepted_of_busy {c : HostCommand} {s : StateAt w} (h : s.busy = true) : accepted c s = false := by
  simp [accepted, h]

/-- `DPOS` reads as its content wherever it has a meaning. -/
theorem hostReadReg_dpos {s : StateAt w} (h : s.dposMeant = true) : hostReadReg .dpos s = s.dpos := by
  simp [hostReadReg, h]

end Sys2Proof.Machine
end

