-- ==== Sys2Proof/Laws/Operands.lean ====
section
/-! SUPPORT. What an admissible width gives, the conversions of R6 and R63, and the two tests the machine
makes of a Value. -/

namespace Sys2Proof.Machine

variable {w : Nat}

/-- An admissible width is 16 or more (R5). -/
theorem sixteen_le_of_vlenWf (h : Config.vlenWf w = true) : 16 ≤ w := by
  simp only [Config.vlenWf, decide_eq_true_eq] at h; exact h.1

/-- An admissible width is a power of two, so the low `SHAMT_BITS` bits of an amount are the amount modulo
the width (R142). -/
theorem two_pow_shamtBits (h : Config.vlenWf w = true) : 2 ^ Config.shamtBits w = w := by
  simp only [Config.vlenWf, decide_eq_true_eq] at h; exact h.2.symm

/-- A zero-extended byte is the string of bits with the byte's number, at every width. -/
theorem zextByte_eq (k : Byte) : (zextByte k : Value w) = BitVec.ofNat w k.toNat := by
  apply BitVec.eq_of_toNat_eq
  simp [zextByte]

theorem zextByte_toNat (h : Config.vlenWf w = true) (k : Byte) : (zextByte k : Value w).toNat = k.toNat := by
  have hk := k.isLt
  have hp : 2 ^ 8 ≤ 2 ^ w := Nat.pow_le_pow_right (by omega) (by have := sixteen_le_of_vlenWf h; omega)
  simp only [zextByte, BitVec.toNat_setWidth]
  exact Nat.mod_eq_of_lt (by omega)

/-- A zero-extended byte is a Value 0 to 255, never negative (R63). -/
theorem zextByte_toInt (h : Config.vlenWf w = true) (k : Byte) : (zextByte k : Value w).toInt = k.toNat := by
  have hk := k.isLt
  have hp : 2 ^ 9 ≤ 2 ^ w := Nat.pow_le_pow_right (by omega) (by have := sixteen_le_of_vlenWf h; omega)
  rw [BitVec.toInt_eq_toNat_of_lt (by rw [zextByte_toNat h]; omega), zextByte_toNat h]

/-- `toPointer` keeps the bits (R6). -/
theorem toPointer_eq (v : Value w) : toPointer v = v := by simp [toPointer]

@[simp] theorem toPointer_toNat (v : Value w) : (toPointer v).toNat = v.toNat := by
  rw [toPointer_eq]

theorem toPointer_zextByte (k : Byte) :
    (toPointer (zextByte k) : Pointer w) = BitVec.ofNat (Config.PW w) k.toNat := by
  rw [toPointer_eq, zextByte_eq]

theorem toPointer_zextByte_succ (k : Byte) :
    (toPointer (zextByte k) + 1 : Pointer w) = BitVec.ofNat (Config.PW w) (k.toNat + 1) := by
  rw [toPointer_zextByte]
  apply BitVec.eq_of_toNat_eq
  simp

/-- The signed reading of a string of bits is 0 only for the string of zeros. -/
theorem toInt_eq_zero_iff (v : BitVec w) : v.toInt = 0 ↔ v = 0 :=
  ⟨fun h => BitVec.eq_of_toInt_eq (by simpa using h), by rintro rfl; simp⟩

/-- JIF's test is that every bit is 0. -/
theorem conditionIsZero_iff (c : Value w) : conditionIsZero c = true ↔ c = 0 := by
  simp only [conditionIsZero, decide_eq_true_eq, toInt_eq_zero_iff]

theorem divisorIsZero_iff (b : BitVec w) : Alu.divisorIsZero b = true ↔ b = 0 := by
  simp only [Alu.divisorIsZero, decide_eq_true_eq, toInt_eq_zero_iff]

end Sys2Proof.Machine
end

