-- ==== Sys2Proof/Laws/PerInstr.lean ====
section
/-! SUPPORT. A property of every instruction as syntax, one lemma per constructor. -/

/-- How an instruction lies in bytes (R60, R61, R64, R66): its opcode byte selects its constructor in the
opcode map, and a well-formed one is two bytes long exactly when that byte is operand-bearing. -/
def Sys2Proof.Laws.Encoded.Statement (i : Sys2Proof.Instr) : Prop :=
  (∃ make, Sys2Proof.lookup i.opcodeByte = some make ∧ make i.operand = i) ∧
  (i.wellFormed = true →
    (Sys2Proof.encode i).length = if Sys2Proof.bearing i.opcodeByte then 2 else 1)

namespace Sys2Proof.Laws

/-- The length, from the small lemmas of the map. -/
theorem encoded_of (i : Instr) : Encoded.Statement i := by
  refine ⟨lookup_opcodeByte i, fun h => ?_⟩
  rw [encode_length, bearing_opcodeByte h]
  cases i.operand <;> rfl

theorem Encoded.noop (o : Operand) : Encoded.Statement (.noop o) := encoded_of _
theorem Encoded.push (o : Operand) : Encoded.Statement (.push o) := encoded_of _
theorem Encoded.store (o : Operand) : Encoded.Statement (.store o) := encoded_of _
theorem Encoded.load (o : Operand) : Encoded.Statement (.load o) := encoded_of _
theorem Encoded.add (o : Operand) : Encoded.Statement (.add o) := encoded_of _
theorem Encoded.sub (o : Operand) : Encoded.Statement (.sub o) := encoded_of _
theorem Encoded.mul (o : Operand) : Encoded.Statement (.mul o) := encoded_of _
theorem Encoded.div (o : Operand) : Encoded.Statement (.div o) := encoded_of _
theorem Encoded.mod (o : Operand) : Encoded.Statement (.mod o) := encoded_of _
theorem Encoded.and (o : Operand) : Encoded.Statement (.and o) := encoded_of _
theorem Encoded.or (o : Operand) : Encoded.Statement (.or o) := encoded_of _
theorem Encoded.xor (o : Operand) : Encoded.Statement (.xor o) := encoded_of _
theorem Encoded.not (o : Operand) : Encoded.Statement (.not o) := encoded_of _
theorem Encoded.lsf (o : Operand) : Encoded.Statement (.lsf o) := encoded_of _
theorem Encoded.rsf (o : Operand) : Encoded.Statement (.rsf o) := encoded_of _
theorem Encoded.eq (o : Operand) : Encoded.Statement (.eq o) := encoded_of _
theorem Encoded.gt (o : Operand) : Encoded.Statement (.gt o) := encoded_of _
theorem Encoded.lt (o : Operand) : Encoded.Statement (.lt o) := encoded_of _
theorem Encoded.gte (o : Operand) : Encoded.Statement (.gte o) := encoded_of _
theorem Encoded.lte (o : Operand) : Encoded.Statement (.lte o) := encoded_of _
theorem Encoded.proc (o : Operand) : Encoded.Statement (.proc o) := encoded_of _
theorem Encoded.call (o : Operand) : Encoded.Statement (.call o) := encoded_of _
theorem Encoded.ret (o : Operand) : Encoded.Statement (.ret o) := encoded_of _
theorem Encoded.jmp (o : Operand) : Encoded.Statement (.jmp o) := encoded_of _
theorem Encoded.jif (o : Operand) : Encoded.Statement (.jif o) := encoded_of _
theorem Encoded.dbg (o : Operand) : Encoded.Statement (.dbg o) := encoded_of _
theorem Encoded.exit (o : Operand) : Encoded.Statement (.exit o) := encoded_of _

end Sys2Proof.Laws
end

