-- ==== Sys2Proof/Laws/Run.lean ====
section
/-! SUPPORT. Runs of several steps, one step at a time. -/

namespace Sys2Proof.Machine

variable {w : Nat}

/-- One step, then the rest of the run. -/
theorem run_succ (n : Nat) {s t : State} (h : step s = .next t) :
    Host.Core.run Sys2Proof.core (n + 1) s = Host.Core.run Sys2Proof.core n t := by
  have hc : Sys2Proof.core.step s = .next t := h
  simp only [Host.Core.run, hc]

theorem StateAt.quietNow_of_nil {s : StateAt w} (h : s.host = []) : s.quietNow := by
  simp [StateAt.quietNow, h]

theorem StateAt.tick_of_nil {s : StateAt w} (h : s.host = []) : s.tick = s := by
  cases s; simp only [StateAt.tick] at *; simp [h]

/-- With an empty schedule, a step is the machine's own step. -/
theorem step_alone {s : StateAt w} (h : s.host = []) : step ⟨w, s⟩ = machineStep s := by
  rw [step_quiet (StateAt.quietNow_of_nil h), StateAt.tick_of_nil h]

/-- A machine that is not busy and is left alone stays as it is. -/
theorem run_waiting (n : Nat) {s : StateAt w} (hb : s.busy = false) (h : s.host = []) :
    Host.Core.run Sys2Proof.core n (State.mk w s) = .next (State.mk w s) := by
  induction n with
  | zero => rfl
  | succ n ih => rw [run_succ n (by rw [step_alone h, machineStep_waiting hb]), ih]

end Sys2Proof.Machine
end

