-- ==== Sys2Proof/Laws/Shapes.lean ====
section
/-! SUPPORT. What it takes to show that an instruction has one of the shapes of `Sys2Proof/Safety.lean`. -/

namespace Sys2Proof.Machine

variable {w : Nat}

/-- `wrap` is R6's `wrap`. -/
theorem isWrap_wrap (z : Int) : IsWrap z (wrap z : Value w) := wrap_toNat z

theorem formatN_of_lookup {make : Operand → Instr} {b : Byte} (h : lookup b = some make)
    (hb : bearing b = false) : FormatN make b := by
  obtain ⟨h1, h2, _⟩ := lookup_some h none
  exact ⟨by simp [encode, h1, h2], fun rest => by simp [decode, h, hb]⟩

theorem formatK_of_lookup {make : Operand → Instr} {b : Byte} (h : lookup b = some make)
    (hb : bearing b = true) : FormatK make b := by
  intro k rest
  obtain ⟨h1, h2, _⟩ := lookup_some h (some k)
  exact ⟨by simp [encode, h1, h2], by simp [decode, h, hb]⟩

/-- An instruction that is `binaryTotal f` has the two-operand shape, for any property of `f`. -/
theorem twoOperand_of_binaryTotal {make : Operand → Instr} {b : Byte}
    {f : {w : Nat} → Value w → Value w → Value w} {result : ResultRule} (hN : FormatN make b)
    (hx : ∀ o (s : State), exec (make o) s = finish s.body (binaryTotal f s.body))
    (hP : ∀ (w : Nat), Config.vlenWf w = true → ∀ a b : Value w, result a b (f a b)) :
    TwoOperand make b result := by
  refine ⟨hN, fun w o s hw => ⟨fun a b rest hs hf => ⟨f a b, hP w hw a b, ?_⟩, fun h => ?_⟩⟩
  · rw [hx, binaryTotal, binary_next hs rfl hf]; rfl
  · rw [hx, binaryTotal, binary_short h]; rfl

/-- An instruction that is `binaryDivide f` has the dividing shape. -/
theorem twoOperandDivide_of_binaryDivide {make : Operand → Instr} {b : Byte}
    {f : {w : Nat} → Value w → Value w → Value w} {result : ResultRule} (hN : FormatN make b)
    (hx : ∀ o (s : State), exec (make o) s = finish s.body (binaryDivide f s.body))
    (hP : ∀ (w : Nat), Config.vlenWf w = true → ∀ a b : Value w, b ≠ 0 → result a b (f a b)) :
    TwoOperandDivide make b result := by
  refine ⟨hN, fun w o s hw => ⟨fun a b rest hs hf h0 => ⟨f a b, hP w hw a b h0, ?_⟩, fun a rest hs => ?_,
    fun h => ?_⟩⟩
  · rw [hx, binaryDivide, binary_next hs (v := f a b)
      (by rw [if_neg]; rwa [divisorIsZero_iff]) hf]; rfl
  · rw [hx, binaryDivide, binary_raises hs (e := .divideByZero)
      (by rw [if_pos]; rw [divisorIsZero_iff])]; rfl
  · rw [hx, binaryDivide, binary_short h]; rfl

end Sys2Proof.Machine
end

