-- ==== Sys2Proof/Tests/Slice0.lean ====
section
/-! SUPPORT. The model's own tests. Every expected value is one of `spec/` (the vector's name in
`spec/95_test_vectors.md`, or the rule whose example it is, stands in the docstring). The last part gives,
for each statement with hypotheses, a concrete state and operands that meet them. -/

namespace Sys2Proof.Tests

open Sys2Proof.Machine

/-! ### Well-formedness: an ill-formed term for each check -/

/-- R61, R64: format `K` without its operand byte. -/
theorem test_wf_refuses_missing_operand :
    (Instr.push none).wellFormed = false ∧ (Instr.store none).wellFormed = false ∧
    (Instr.load none).wellFormed = false ∧ (Instr.proc none).wellFormed = false ∧
    (Instr.call none).wellFormed = false ∧ (Instr.jmp none).wellFormed = false ∧
    (Instr.jif none).wellFormed = false ∧ (Instr.dbg none).wellFormed = false := by decide

/-- R61, R64: format `N` with an operand byte. -/
theorem test_wf_refuses_surplus_operand :
    (Instr.noop (some 0)).wellFormed = false ∧ (Instr.add (some 1)).wellFormed = false ∧
    (Instr.rsf (some 2)).wellFormed = false ∧ (Instr.lte (some 3)).wellFormed = false ∧
    (Instr.ret (some 4)).wellFormed = false ∧ (Instr.exit (some 255)).wellFormed = false := by decide

/-- The pairings the decoder makes. -/
theorem test_wf_accepts :
    (Instr.push (some 255)).wellFormed = true ∧ (Instr.exit none).wellFormed = true := by decide

/-! ### Decoding: the words of the opcode map (R66), written out bit by bit -/

/-- E15, stack and arithmetic. -/
theorem test_decode_stack_arith :
    decode [0b00000000#8] = .ok (.noop none, []) ∧ decode [0b00010000#8] = .ok (.add none, []) ∧
    decode [0b00010001#8] = .ok (.sub none, []) ∧ decode [0b00010010#8] = .ok (.mul none, []) ∧
    decode [0b00010011#8] = .ok (.div none, []) ∧ decode [0b00010100#8] = .ok (.mod none, []) :=
  ⟨rfl, rfl, rfl, rfl, rfl, rfl⟩

/-- E15, bitwise and shift. -/
theorem test_decode_bitwise :
    decode [0b00011000#8] = .ok (.and none, []) ∧ decode [0b00011001#8] = .ok (.or none, []) ∧
    decode [0b00011010#8] = .ok (.xor none, []) ∧ decode [0b00011011#8] = .ok (.not none, []) ∧
    decode [0b00011100#8] = .ok (.lsf none, []) ∧ decode [0b00011101#8] = .ok (.rsf none, []) :=
  ⟨rfl, rfl, rfl, rfl, rfl, rfl⟩

/-- E15, comparison, RET and EXIT. -/
theorem test_decode_compare_ret_exit :
    decode [0b00100000#8] = .ok (.eq none, []) ∧ decode [0b00100001#8] = .ok (.gt none, []) ∧
    decode [0b00100010#8] = .ok (.lt none, []) ∧ decode [0b00100011#8] = .ok (.gte none, []) ∧
    decode [0b00100100#8] = .ok (.lte none, []) ∧ decode [0b00101010#8] = .ok (.ret none, []) ∧
    decode [0b11111111#8] = .ok (.exit none, []) :=
  ⟨rfl, rfl, rfl, rfl, rfl, rfl, rfl⟩

/-- E16, format `K`, each with its operand byte. -/
theorem test_decode_operand_bearing :
    decode [0b00000001#8, 1#8] = .ok (.push (some 1), []) ∧
    decode [0b00000010#8, 2#8] = .ok (.store (some 2), []) ∧
    decode [0b00000011#8, 3#8] = .ok (.load (some 3), []) ∧
    decode [0b00101000#8, 4#8] = .ok (.proc (some 4), []) ∧
    decode [0b00101001#8, 5#8] = .ok (.call (some 5), []) ∧
    decode [0b00101100#8, 6#8] = .ok (.jmp (some 6), []) ∧
    decode [0b00101101#8, 7#8] = .ok (.jif (some 7), []) ∧
    decode [0b11111110#8, 8#8] = .ok (.dbg (some 8), []) :=
  ⟨rfl, rfl, rfl, rfl, rfl, rfl, rfl, rfl⟩

/-- E4, E5, E14: an operand byte is never looked up, and position decides. -/
theorem test_decode_operand_not_opcode :
    decode [0x01#8, 0xFF#8] = .ok (.push (some 255), []) ∧
    decode [0x01#8, 0x04#8] = .ok (.push (some 4), []) ∧
    decode [0x01#8, 0x00#8, 0x00#8] = .ok (.push (some 0), [0x00#8]) := ⟨rfl, rfl, rfl⟩

/-- E8 to E13 and the empty program: rejected by name. -/
theorem test_decode_rejects :
    decode [0xFE#8] = .error (.truncatedOperand 0xFE) ∧ decode [0x2D#8] = .error (.truncatedOperand 0x2D) ∧
    decode [0x04#8] = .error (.invalidOpcode 0x04) ∧ decode [0x15#8] = .error (.invalidOpcode 0x15) ∧
    decode [0x2B#8] = .error (.invalidOpcode 0x2B) ∧ decode [0xFD#8] = .error (.invalidOpcode 0xFD) ∧
    decode [] = .error .endOfProgram := ⟨rfl, rfl, rfl, rfl, rfl, rfl, rfl⟩

/-- R66: no two rows of the map share a byte value, and there are 27. -/
theorem test_opcodes_distinct :
    (opcodeTable.map (·.byte)).Nodup ∧ opcodeTable.length = 27 := by decide

/-- R64: the map's operand-bearing bytes are those of the eight instructions R64 names. -/
theorem test_bearing_count : (opcodeTable.filter (fun r => bearing r.byte)).length = 8 := by decide

/-- R77: the encoding of S3's program is its bytes. -/
theorem test_encode_sequence :
    encodeSeq [.proc (some 2), .noop none, .ret none, .call (some 0), .noop none, .exit none] =
      [0x28#8, 0x02#8, 0x00#8, 0x2A#8, 0x29#8, 0x00#8, 0x00#8, 0xFF#8] := by decide

/-- A table word: PUSH 119 (E3) with the operand in bits 15 to 8, NOT in one byte, and PUSH with no bits
given to its operand. -/
theorem test_table_words :
    decodeTableWord 16 0x7701 = some (.push (some 0x77)) ∧ decodeTableWord 8 0x1B = some (.not none) ∧
    decodeTableWord 8 0x7701 = some (.push (some 0)) ∧ decodeTableWord 8 0x04 = none := ⟨rfl, rfl, rfl, rfl⟩

/-! ### The ALU (`spec/95_test_vectors.md` section 3) -/

/-- `MIN` and `MAX` at `VLEN = 64`. -/
def minV : Value 64 := 0x8000000000000000
def maxV : Value 64 := 0x7FFFFFFFFFFFFFFF

/-- Section 3.1. -/
theorem test_alu_add_sub_mul :
    Alu.add maxV 1 = minV ∧ Alu.add minV (-1) = maxV ∧ Alu.sub 3 10 = (-7 : Value 64) ∧
    Alu.sub 0 minV = minV ∧ Alu.mul (-7) 6 = (-42 : Value 64) ∧ Alu.mul maxV 2 = (-2 : Value 64) ∧
    Alu.mul 3037000500 3037000500 = (0x8000000008ABC290 : Value 64) := by decide

/-- Section 3.2. -/
theorem test_alu_div_mod :
    Alu.div (-7) 2 = (-3 : Value 64) ∧ Alu.mod (-7) 2 = (-1 : Value 64) ∧ Alu.div 7 (-2) = (-3 : Value 64) ∧
    Alu.mod 7 (-2) = (1 : Value 64) ∧ Alu.div (-7) (-2) = (3 : Value 64) ∧ Alu.mod (-3) 10 = (-3 : Value 64) ∧
    Alu.div minV (-1) = minV ∧ Alu.mod minV (-1) = 0 := by decide

/-- Section 3.3. -/
theorem test_alu_bitwise :
    Alu.and 0xF0 0x3C = (0x30 : Value 64) ∧ Alu.or 0xF0 0x3C = (0xFC : Value 64) ∧
    Alu.xor 0xF0 0x3C = (0xCC : Value 64) ∧ Alu.not 85 = (-86 : Value 64) ∧ Alu.not minV = maxV := by decide

/-- Section 3.4. -/
theorem test_alu_shift :
    Alu.lsf 1 63 = minV ∧ Alu.lsf 5 65 = (10 : Value 64) ∧ Alu.lsf 1 (-1) = minV ∧
    Alu.lsf maxV 1 = (-2 : Value 64) ∧ Alu.rsf (-16) 2 = (-4 : Value 64) ∧ Alu.rsf minV 63 = (-1 : Value 64) ∧
    Alu.rsf (-16) 66 = (-4 : Value 64) ∧ Alu.rsf maxV 62 = 1 ∧ Alu.rsf (-7) 1 = (-4 : Value 64) := by decide

/-- Section 3.5: the rows (-1, 0), (MAX, MIN) and (3, 3). -/
theorem test_alu_compare :
    Alu.eq (-1) 0 = (0 : Value 64) ∧ Alu.gt (-1) 0 = (0 : Value 64) ∧ Alu.lt (-1) 0 = (1 : Value 64) ∧
    Alu.gt maxV minV = 1 ∧ Alu.lte maxV minV = 0 ∧ Alu.gte 3 3 = (1 : Value 64) ∧
    Alu.lte 3 3 = (1 : Value 64) ∧ Alu.eq minV minV = 1 := by decide

/-! ### One instruction -/

/-- A machine of width `w` in the reference configuration, just reset. -/
def fresh (w : Nat) : StateAt w := StateAt.initial Config.Params.reference []

/-- R29: the state after reset is that of the reference configuration's machine. -/
theorem test_reset : State.reset = ⟨64, fresh 64⟩ := rfl

/-- A machine that is running with the given value stack (top first) and call stack (newest first). -/
def running (vs : List (Value 64)) (cs : List (Pointer 64)) : StateAt 64 :=
  { fresh 64 with vs := vs, cs := cs, status := .running, imemValid := true }

/-- The next state of a machine of width `w`, if there is one and it is one of that width. -/
def after (w : Nat) (o : Host.Outcome State Fault Refusal) : Option (StateAt w) :=
  match o with
  | .next ⟨v, t⟩ => if h : v = w then some (h ▸ t) else none
  | .fault _ => none
  | .refused _ => none

/-- A field of the next state. -/
def see {α : Type} {w : Nat} (i : Instr) (s : StateAt w) (f : StateAt w → α) : Option α :=
  (after w (exec i ⟨w, s⟩)).map f

/-- R110's example. -/
theorem test_noop : see (.noop none) (running [] []) (fun t => (t.ip, t.vs)) = some (1, []) := by decide

/-- E4: `PUSH 255` pushes 255, not -1. -/
theorem test_push : see (.push (some 255)) (running [] []) (fun t => (t.vs, t.ip)) = some ([255], 1) := by
  decide

/-- F16: PUSH without an operand. -/
theorem test_push_no_operand :
    see (.push none) (running [] []) (fun t => (t.status, t.errKind, t.errIpValid)) =
      some (.fault, some .emptyOperand, true) := by decide

/-- R112's example. -/
theorem test_store :
    see (.store (some 5)) (running [42] []) (fun t => (t.vs, t.heap, t.ip)) = some ([], [(5, 42)], 1) := by
  decide

/-- F18: the operand is tested before the stack. -/
theorem test_store_order :
    see (.store none) (running [] []) (·.errKind) = some (some .emptyOperand) := by decide

/-- S2: LOAD of a stored cell. -/
theorem test_load :
    see (.load (some 5)) { running [] [] with heap := [(5, 42)] } (fun t => (t.vs, t.heap)) =
      some ([42], [(5, 42)]) := by decide

/-- F11: LOAD of a cell never stored carries the address. -/
theorem test_load_absent :
    see (.load (some 5)) { running [] [] with heap := [(4, 1)], ip := 2 }
      (fun t => (t.errKind, t.errInfo, t.errIp, t.ip)) =
      some (some .notFoundAddressInStore, 5, 2, 2) := by decide

/-- R121's example. -/
theorem test_add : see (.add none) (running [3, 10] []) (·.vs) = some [13] := by decide

/-- F1: one entry is not enough, and it stays. -/
theorem test_add_short :
    see (.add none) (running [5] []) (fun t => (t.errKind, t.vs)) = some (some .emptyStack, [5]) := by decide

/-- S1. -/
theorem test_sub : see (.sub none) (running [3, 10] []) (·.vs) = some [7] := by decide

/-- R123's example. -/
theorem test_mul : see (.mul none) (running [2, 21] []) (·.vs) = some [42] := by decide

/-- S1. -/
theorem test_div : see (.div none) (running [3, 10] []) (·.vs) = some [3] := by decide

/-- F7: a divisor of 0 changes nothing but the error registers and the status. -/
theorem test_div_zero :
    see (.div none) { running [0, 7] [] with ip := 2 } (fun t => (t.errKind, t.errIp, t.ip, t.vs)) =
      some (some .divideByZero, 2, 2, [0, 7]) := by decide

/-- R125's example. -/
theorem test_mod : see (.mod none) (running [3, 10] []) (·.vs) = some [1] := by decide

/-- F9's order for MOD: the pops are tested before the divisor. -/
theorem test_mod_order : see (.mod none) (running [0] []) (·.errKind) = some (some .emptyStack) := by decide

/-- R136, R137, R138: their examples, and entries below that stay. -/
theorem test_and_or_xor :
    see (.and none) (running [60, 240, 9] []) (·.vs) = some [48, 9] ∧
    see (.or none) (running [60, 240] []) (·.vs) = some [252] ∧
    see (.xor none) (running [60, 240] []) (·.vs) = some [204] := by decide

/-- R139's example; X12's last step. -/
theorem test_not :
    see (.not none) (running [85] []) (·.vs) = some [-86] ∧
    see (.not none) (running [1] []) (·.vs) = some [-2] := by decide

/-- R140 and R141: their examples. -/
theorem test_lsf_rsf :
    see (.lsf none) (running [4, 1] []) (·.vs) = some [16] ∧
    see (.rsf none) (running [2, 16] []) (·.vs) = some [4] := by decide

/-- R151 to R155: their examples. -/
theorem test_compare :
    see (.eq none) (running [5, 5] []) (·.vs) = some [1] ∧
    see (.gt none) (running [3, 10] []) (·.vs) = some [1] ∧
    see (.lt none) (running [10, 3] []) (·.vs) = some [1] ∧
    see (.gte none) (running [3, 3] []) (·.vs) = some [1] ∧
    see (.lte none) (running [3, 4] []) (·.vs) = some [0] := by decide

/-- S3, step 1. -/
theorem test_proc : see (.proc (some 2)) (running [] []) (·.ip) = some 3 := by decide

/-- S3, step 2; F15: at a full call stack. -/
theorem test_call :
    see (.call (some 0)) { running [] [] with ip := 3 } (fun t => (t.cs, t.ip)) = some ([4], 1) ∧
    see (.call (some 0))
      { running [] [2] with ip := 1, params := { Config.Params.reference with csDepth := some 1 } }
      (fun t => (t.errKind, t.cs, t.errIp)) = some (some .callStackOverflow, [2], 1) := by decide

/-- S3, step 4. -/
theorem test_ret :
    see (.ret none) { running [] [4] with ip := 2 } (fun t => (t.cs, t.ip)) = some ([], 4) := by decide

/-- S7. -/
theorem test_ret_empty : see (.ret none) (running [] []) (·.errKind) = some (some .emptyCallStack) := by
  decide

/-- X6. -/
theorem test_jmp : see (.jmp (some 200)) (running [] []) (·.ip) = some 200 := by decide

/-- S4, taken and not taken: both Values are popped either way. -/
theorem test_jif :
    see (.jif (some 0)) { running [0, 3] [] with ip := 2 } (fun t => (t.ip, t.vs)) = some (3, []) ∧
    see (.jif (some 0)) { running [1, 9] [] with ip := 2 } (fun t => (t.ip, t.vs)) = some (3, []) := by
  decide

/-- X7: the target -1 is read as unsigned bits. F17: no operand is needed. -/
theorem test_jif_far :
    see (.jif (some 0)) (running [0, -1] []) (·.ip) = some 0xFFFFFFFFFFFFFFFF ∧
    see (.jif none) (running [] []) (·.errKind) = some (some .emptyStack) := by decide

/-- P2, step 4. -/
theorem test_dbg :
    see (.dbg (some 0)) { running [7] [] with ip := 3 } (fun t => (t.vs, t.dbgLog, t.ip)) =
      some ([], [⟨3, 7⟩], 4) := by decide

/-- F4: no event without a Value. -/
theorem test_dbg_empty :
    see (.dbg (some 0)) (running [] []) (fun t => (t.errKind, t.dbgLog)) = some (some .emptyStack, []) := by
  decide

/-- R176's example. -/
theorem test_exit :
    see (.exit none) (running [1] [6]) (fun t => (t.status, t.ip, t.vs, t.cs)) =
      some (.done, 0, [1], [6]) := by decide

/-- F14's last step: PUSH at a full value stack. -/
theorem test_push_full :
    see (.push (some 1)) { running [1, 1] [] with params := { Config.Params.reference with vsDepth := some 2 } }
      (fun t => (t.errKind, t.vs)) = some (some .stackOverflow, [1, 1]) := by decide

/-! ### Another admissible width (R5: the width is an argument) -/

/-- The widths R5 admits: powers of two from 16. -/
theorem test_widths :
    Config.vlenWf 16 = true ∧ Config.vlenWf 32 = true ∧ Config.vlenWf 64 = true ∧ Config.vlenWf 8 = false ∧
    Config.vlenWf 24 = false := by decide

/-- A running machine with `VLEN = 16` and the given value stack. -/
def running16 (vs : List (Value 16)) : StateAt 16 :=
  { fresh 16 with vs := vs, status := .running, imemValid := true }

/-- R126 at `VLEN = 16`: `MAX + 1 = MIN`; R142 there: an amount of 17 shifts by 1; R63: 255 stays 255. -/
theorem test_width16 :
    see (.add none) (running16 [1, 0x7FFF]) (·.vs) = some [0x8000] ∧
    see (.lsf none) (running16 [17, 5]) (·.vs) = some [10] ∧
    see (.push (some 255)) (running16 []) (fun t => (t.vs, t.ip)) = some ([0x00FF], 1) := by decide

/-! ### One step -/

/-- A field of the state after one step. -/
def seeStep {α : Type} {w : Nat} (s : StateAt w) (f : StateAt w → α) : Option α :=
  (after w (step ⟨w, s⟩)).map f

/-- A machine that is decoding the given bytes at the given position. -/
def decoding (prog : List Byte) (dpos : Nat) : StateAt 64 :=
  { fresh 64 with prog := prog, dpos := dpos, status := .decoding }

/-- E3: one instruction; R70's end of the buffer. -/
theorem test_decoder :
    seeStep (decoding [0x01, 0x77] 0) (fun t => (t.imem, t.dpos, t.status)) =
      some ([.push (some 0x77)], 2, .decoding) ∧
    seeStep (decoding [0x01, 0x77] 2) (fun t => (t.imemValid, t.status)) = some (true, .ready) := by decide

/-- S6, S9: the decoder's failures. -/
theorem test_decoder_fails :
    seeStep { decoding [0x00, 0x04, 0x00] 1 with imem := [.noop none] }
      (fun t => (t.errKind, t.errInfo, t.dpos, t.imem)) = some (some .invalidOpcode, 4, 1, []) ∧
    seeStep { decoding [0x00, 0x04, 0x00] 1 with imem := [.noop none] }
      (fun t => (t.errIpValid, t.imemValid, t.status)) = some (false, false, .fault) ∧
    seeStep { decoding [0x00, 0x01] 1 with imem := [.noop none] }
      (fun t => (t.errKind, t.errInfo, t.dpos, t.imem)) = some (some .truncatedOperand, 1, 1, []) := by decide

/-- E17 to E19 with `IMEM_DEPTH = 1`: the order of the failure tests. -/
theorem test_decoder_order :
    seeStep
      { decoding [0x00, 0x00] 1 with
        imem := [.noop none], params := { Config.Params.reference with imemDepth := some 1 } }
      (fun t => (t.errKind, t.errInfo, t.dpos)) = some (some .programTooLong, 0, 1) ∧
    seeStep
      { decoding [0x00, 0x04] 1 with
        imem := [.noop none], params := { Config.Params.reference with imemDepth := some 1 } }
      (·.errKind) = some (some .invalidOpcode) ∧
    seeStep
      { decoding [0x00, 0x01] 1 with
        imem := [.noop none], params := { Config.Params.reference with imemDepth := some 1 } }
      (·.errKind) = some (some .truncatedOperand) := by decide

/-- H1, H5: `RUN` after reset is ignored; reset acts on a running machine. -/
theorem test_host :
    seeStep { fresh 64 with host := [.event (.command .run)] } (·.status) = some .idle ∧
    seeStep { running [1] [2] with host := [.event .reset] } (fun t => (t.status, t.vs, t.imemValid)) =
      some (.idle, [], false) ∧
    seeStep { running [1] [2] with host := [.event (.command .decode)] } (fun t => (t.status, t.vs)) =
      some (.running, [1]) := by decide

/-- H4's second run: `RUN` clears the heap. -/
theorem test_run_clears :
    seeStep
      { fresh 64 with
        heap := [(0, 1)], vs := [3], ip := 7, imem := [.load (some 0)], imemValid := true, status := .done,
        host := [.event (.command .run)] }
      (fun t => (t.heap, t.vs, t.ip, t.status)) = some ([], [], 0, .running) := by decide

/-- E1's run: with `ILEN = 0` the first step ends the run. -/
theorem test_past_end : seeStep (running [] []) (fun t => (t.status, t.ip)) = some (.done, 0) := by decide

/-- The first instruction after reset, placed by `withFetchWord`: PUSH 119 (E3). -/
theorem test_placed :
    seeStep (State.reset.withFetchWord 16 0x7701).body (fun t => (t.vs, t.ip)) = some ([0x77], 1) := by decide

/-- A refused word meets the decoder, which names it (E10). -/
theorem test_placed_invalid :
    seeStep (State.reset.withFetchWord 8 0x04).body (fun t => (t.errKind, t.errInfo)) =
      some (some .invalidOpcode, 4) := by decide

/-! ### Witnesses: a state and operands that meet each statement's hypotheses -/

theorem reset_inv : State.reset.Inv := by
  constructor <;> first | rfl | decide

/-- A running machine about to execute `i`, and what makes it a state of the invariant. -/
def about (i : Instr) (vs : List (Value 64)) : StateAt 64 := { running vs [] with imem := [i] }

theorem about_inv (i : Instr) (vs : List (Value 64)) (h : vs.length ≤ 256) : (about i vs).Inv := by
  constructor
  case vs_fits => exact decide_eq_true h
  all_goals first | rfl | simp [about, running, fresh, StateAt.initial, Memory.wf]

theorem about_quiet (i : Instr) (vs : List (Value 64)) : (about i vs).quietNow := .inl rfl

theorem witness_DecodeOfEncode : (Instr.jif (some 0xFF)).wellFormed = true := by decide

theorem witness_EncodeOfDecode : decode [0xFE#8, 8#8, 9#8] = .ok (.dbg (some 8), [9#8]) := rfl

theorem witness_SequenceRoundTrip_first :
    (decoding [0x00] 0).status = .decoding ∧ (decoding [0x00] 0).dpos = 0 ∧ (decoding [0x00] 0).imem = [] ∧
    (decoding [0x00] 0).host = [] ∧
    ∃ t, Host.Core.run Sys2Proof.core 2 (State.mk 64 (decoding [0x00] 0)) = .next (State.mk 64 t) ∧
      t.status = .ready :=
  ⟨rfl, rfl, rfl, rfl, _, rfl, rfl⟩

theorem witness_SequenceRoundTrip_second :
    (decoding [0x01, 0xFF, 0x00] 0).status = .decoding ∧ (decoding [0x01, 0xFF, 0x00] 0).imem = [] ∧
    (∀ i ∈ [Instr.push (some 0xFF), .noop none], i.wellFormed = true) ∧
    Config.fits Config.Params.reference.imemDepth 2 = true ∧
    (decoding [0x01, 0xFF, 0x00] 0).prog = encodeSeq [.push (some 0xFF), .noop none] := by decide

theorem witness_DecodingEnds :
    (decoding [0x01, 0x01, 0x15] 0).status = .decoding ∧ (decoding [0x01, 0x01, 0x15] 0).dpos = 0 ∧
    (decoding [0x01, 0x01, 0x15] 0).host = [] := ⟨rfl, rfl, rfl⟩

theorem witness_InvalidBytes : isOpcode 0x04 = false ∧ isOpcode 0xFD = false := by decide

theorem witness_DecoderStep_premises :
    (decoding [0x00] 1).quietNow ∧ (decoding [0x00] 1).status = .decoding ∧
    (decoding [0x00] 1).dpos = (decoding [0x00] 1).plen := ⟨.inl rfl, rfl, rfl⟩

theorem witness_DecoderStep_clauses :
    (decoding [0x04] 0).prog[0]? = some 0x04 ∧ isOpcode 0x04 = false ∧
    (decoding [0xFE] 0).prog[0]? = some 0xFE ∧ isOpcode 0xFE = true ∧ bearing 0xFE = true ∧
    0 + 1 = (decoding [0xFE] 0).plen ∧
    (decoding [0x01, 0x77] 0).prog[0 + 1]? = some 0x77 ∧
    (decoding [0x01, 0x77] 0).params.imemDepth ≠ some (decoding [0x01, 0x77] 0).ilen ∧
    isOpcode 0x00 = true ∧ bearing 0x00 = false := by decide

theorem witness_DecoderStep_full :
    ({ decoding [0x00, 0x00] 1 with
        imem := [.noop none],
        params := { Config.Params.reference with imemDepth := some 1 } } : StateAt 64).params.imemDepth =
      some ({ decoding [0x00, 0x00] 1 with imem := [.noop none] } : StateAt 64).ilen := rfl

theorem witness_DecoderFailure :
    (decoding [0x04] 0).quietNow ∧ (decoding [0x04] 0).status = .decoding ∧
    ∃ t, step ⟨64, decoding [0x04] 0⟩ = .next ⟨64, t⟩ ∧ t.status = .fault := ⟨.inl rfl, rfl, _, rfl, rfl⟩

theorem witness_EngineStep :
    (about (.not none) [85]).quietNow ∧ (about (.not none) [85]).status = .running ∧
    (about (.not none) [85]).imem[(about (.not none) [85]).ip.toNat]? = some (.not none) ∧
    (running [] []).ilen ≤ (running [] []).ip.toNat := ⟨.inl rfl, rfl, rfl, Nat.le_refl 0⟩

theorem witness_StepRunsDecoded :
    decode ((decoding [0x00, 0x28, 0x07] 1).prog.drop (decoding [0x00, 0x28, 0x07] 1).dpos) =
      .ok (.proc (some 7), []) ∧
    (decoding [0x00, 0x28, 0x07] 1).params.imemDepth ≠ some (decoding [0x00, 0x28, 0x07] 1).ilen ∧
    (about (.proc (some 7)) []).imem =
      (decoding [0x28, 0x07] 0).imem ++ [.proc (some 7)] ∧
    (about (.proc (some 7)) []).ip.toNat = (decoding [0x28, 0x07] 0).ilen ∧
    (about (.proc (some 7)) []).status = .running := ⟨rfl, by decide, rfl, rfl, rfl⟩

theorem witness_PlacedWordRuns : decodeTableWord 16 0xFF2C = some (.jmp (some 0xFF)) := rfl

theorem witness_StepWaits : (fresh 64).quietNow ∧ (fresh 64).busy = false := ⟨.inl rfl, rfl⟩

theorem witness_OwnStepTransitions :
    (about (.exit none) []).Inv ∧ (about (.exit none) []).quietNow ∧
    ∃ t, step ⟨64, about (.exit none) []⟩ = .next ⟨64, t⟩ := ⟨about_inv _ _ (by decide), .inl rfl, _, rfl⟩

theorem witness_EventTransitions :
    ({ fresh 64 with host := [.event (.command .decode)] } : StateAt 64).Inv ∧
    ∃ t, step ⟨64, { fresh 64 with host := [.event (.command .decode)] }⟩ = .next ⟨64, t⟩ := by
  refine ⟨?_, _, rfl⟩
  constructor <;> first | rfl | decide

theorem witness_ResetEffect :
    ({ running [1] [2] with host := [.event .reset, .quiet] } : StateAt 64).host =
      .event .reset :: [.quiet] := rfl

theorem witness_BusyIgnoresCommands :
    ({ running [] [] with host := [.event (.command .run)] } : StateAt 64).status = .running ∧
    (decoding [0x00] 0).status = .decoding := ⟨rfl, rfl⟩

/-- The idle machine with a command presented: what the four command statements ask for. -/
def idleWith (c : HostCommand) (valid : Bool) : StateAt 64 :=
  { fresh 64 with imemValid := valid, status := .done, host := [.event (.command c)] }

theorem witness_RunCommand :
    (idleWith .run true).busy = false ∧ (idleWith .run true).imemValid = true ∧
    (idleWith .run false).imemValid = false ∧ (idleWith .run true).host = .event (.command .run) :: [] :=
  ⟨rfl, rfl, rfl, rfl⟩

theorem witness_DecodeCommand :
    (idleWith .decode true).busy = false ∧
    (idleWith .decode true).host = .event (.command .decode) :: [] := ⟨rfl, rfl⟩

theorem witness_LoadProgramCommand :
    (idleWith (.loadProgram [0xFF]) true).busy = false ∧
    Config.fits (idleWith (.loadProgram [0xFF]) true).params.progMax 1 = true ∧
    (idleWith (.loadProgram [0xFF]) true).host = .event (.command (.loadProgram [0xFF])) :: [] :=
  ⟨rfl, by decide, rfl⟩

theorem witness_LoadImemCommand :
    (idleWith (.loadImem [.push none]) true).busy = false ∧
    (idleWith (.loadImem [.push none]) true).params.hasLoadImem = true ∧
    Config.fits (idleWith (.loadImem [.push none]) true).params.imemDepth 1 = true := ⟨rfl, rfl, by decide⟩

/-- Each state in which `DPOS` has a meaning, and a run that ends at an EXIT or past the end. -/
theorem witness_HostReadsRegisters :
    (fresh 64).status = .idle ∧ (decoding [0x00] 0).status = .decoding ∧
    (∃ t, step ⟨64, decoding [0x04] 0⟩ = .next ⟨64, t⟩ ∧ t.status = .fault ∧ t.errIpValid = false) ∧
    (about (.exit none) []).quietNow ∧ (about (.exit none) []).status = .running ∧
    (∃ t, step ⟨64, about (.exit none) []⟩ = .next ⟨64, t⟩ ∧ t.status = .done) ∧
    (running [] []).quietNow ∧ (running [] []).status = .running ∧
    ∃ t, step ⟨64, running [] []⟩ = .next ⟨64, t⟩ ∧ t.status = .done :=
  ⟨rfl, rfl, ⟨_, rfl, rfl, rfl⟩, .inl rfl, rfl, ⟨_, rfl, rfl⟩, .inl rfl, rfl, _, rfl, rfl⟩

theorem witness_HostReadsLiveEntries :
    (fresh 64).status ≠ .running ∧ (running [1] []).status = .running := ⟨by decide, rfl⟩

theorem witness_InvariantStep :
    State.Inv ⟨64, about (.add none) [3, 10]⟩ ∧ ∃ t, step ⟨64, about (.add none) [3, 10]⟩ = .next t :=
  ⟨about_inv _ _ (by decide), _, rfl⟩

theorem witness_ErrorMatrix :
    (running [0, 7] []).vsFits ∧ (running [0, 7] []).status = .running ∧
    firstError (.div none) (running [0, 7] []) = some .divideByZero ∧
    firstError (.div none) (running [3, 10] []) = none := ⟨rfl, rfl, rfl, rfl⟩

theorem witness_RuntimeErrorEntry :
    (running [] []).status = .running ∧
    ∃ t, exec (.ret none) ⟨64, running [] []⟩ = .next ⟨64, t⟩ ∧ t.status = .fault := ⟨rfl, _, rfl, rfl⟩

theorem witness_StepOutcomes :
    ∃ t, exec (.jmp (some 0xFF)) ⟨64, running [] []⟩ = .next ⟨64, t⟩ ∧ t.status ≠ .fault := ⟨_, rfl, by decide⟩

theorem witness_ProgramIsReadOnly : ∃ t, exec (.store (some 5)) ⟨64, running [42] []⟩ = .next t := ⟨_, rfl⟩

theorem witness_InstructionFrames :
    ∃ t, exec (.store (some 0xFF)) ⟨64, running [42] []⟩ = .next ⟨64, t⟩ ∧ t.status ≠ .fault :=
  ⟨_, rfl, by decide⟩

theorem witness_HeapIdle :
    (∀ o, Instr.dbg none ≠ .store o) ∧ (∀ o, Instr.dbg none ≠ .load o) ∧
    ∃ t, exec (.dbg none) ⟨64, running [1] []⟩ = .next ⟨64, t⟩ := ⟨nofun, nofun, _, rfl⟩

/-- A running machine with every capacity unbounded. -/
def unbounded (vs : List (Value 64)) : StateAt 64 :=
  { running vs [] with params := ⟨none, none, none, none, true⟩ }

/-- A running machine whose value stack takes four entries. -/
def bounded (vs : List (Value 64)) : StateAt 64 :=
  { running vs [] with params := { Config.Params.reference with vsDepth := some 4 } }

/-- On an unbounded stack, on the reference configuration's, and on one that the entry below fills. -/
theorem witness_StackReachedAtTop :
    (∃ t, exec (.sub none) ⟨64, unbounded [3, 10]⟩ = .next ⟨64, t⟩ ∧ t.status ≠ .fault ∧
      Config.fits (unbounded [3, 10]).params.vsDepth ([3, 10] ++ [9]).length = true ∧
      Config.fits (unbounded [3, 10]).params.vsDepth (t.vs ++ [9]).length = true) ∧
    (∃ t, exec (.push (some 1)) ⟨64, running [3, 10] []⟩ = .next ⟨64, t⟩ ∧ t.status ≠ .fault ∧
      Config.fits (running [3, 10] []).params.vsDepth ([3, 10] ++ [9]).length = true ∧
      Config.fits (running [3, 10] []).params.vsDepth (t.vs ++ [9]).length = true) ∧
    ∃ t, exec (.push (some 1)) ⟨64, bounded [3, 10]⟩ = .next ⟨64, t⟩ ∧ t.status ≠ .fault ∧
      Config.fits (bounded [3, 10]).params.vsDepth ([3, 10] ++ [9]).length = true ∧
      Config.fits (bounded [3, 10]).params.vsDepth (t.vs ++ [9]).length = true :=
  ⟨⟨_, rfl, by decide, rfl, rfl⟩, ⟨_, rfl, by decide, rfl, rfl⟩, _, rfl, by decide, rfl, rfl⟩

theorem witness_UnboundedNeverOverflows :
    (fresh 64).Inv ∧ (∃ t, step ⟨64, (fresh 64)⟩ = .next ⟨64, t⟩) ∧
    (unbounded []).params.csDepth = none ∧ (unbounded []).params.imemDepth = none :=
  ⟨reset_inv, ⟨_, rfl⟩, rfl, rfl⟩

theorem witness_PointerNeverWraps :
    (about (.proc (some 255)) []).Inv ∧ (about (.proc (some 255)) []).params.imemDepth = some 4096 ∧
    (about (.proc (some 255)) []).ip.toNat < (about (.proc (some 255)) []).ilen :=
  ⟨about_inv _ _ (by decide), rfl, by decide⟩

/-- Two machines that differ in everything RUN resets, and in the program bytes. -/
theorem witness_RunDeterminism :
    (idleWith .run true).busy = false ∧
    ({ idleWith .run true with prog := [0xFF], vs := [1], heap := [(0, 1)], ip := 9 } :
      StateAt 64).busy = false ∧
    (idleWith .run true).imemValid = true ∧
    (idleWith .run true).host = [.event (.command .run)] := ⟨rfl, rfl, rfl, rfl⟩

theorem witness_PushRule :
    Config.vlenWf 64 = true ∧ (running [] []).params.vsDepth ≠ some (running [] []).vsp ∧
    ({ running [1, 1] [] with params := { Config.Params.reference with vsDepth := some 2 } } :
      StateAt 64).params.vsDepth = some (running [1, 1] []).vsp := by decide

theorem witness_StoreRule : (running [42] []).vs = 42 :: [] ∧ (running [] []).vs = [] := ⟨rfl, rfl⟩

theorem witness_LoadRule :
    Memory.read [(255, (42 : Value 64))] (heapAddress 255) = some 42 ∧
    Memory.read [(255, (42 : Value 64))] (heapAddress 254) = none ∧
    (running [] []).params.vsDepth ≠ some (running [] []).vsp ∧
    ({ running [1, 1] [] with params := { Config.Params.reference with vsDepth := some 2 } } :
      StateAt 64).params.vsDepth = some (running [1, 1] []).vsp ∧
    ({ idleWith .run true with heap := [(255, 42)] } : StateAt 64).busy = false ∧
    ({ idleWith .run true with heap := [(255, 42)] } : StateAt 64).host = [.event (.command .run)] := by decide

theorem witness_LoadAfterStores :
    (running [1, 2, 3] []).vs = 1 :: 2 :: [3] ∧ (running [1, 2, 3] []).vsFits ∧ (0 : Byte) ≠ 255 :=
  ⟨rfl, rfl, by decide⟩

/-- The premises of `TwoOperand` and `TwoOperandDivide`, each clause: those of `AddSubMulRule`, `DivModRule`,
`AndOrXorRule`, `ShiftRule` and `CompareRule`. -/
theorem witness_TwoOperand :
    Config.vlenWf 64 = true ∧ (running [3, 10] []).vs = 3 :: 10 :: [] ∧ (running [3, 10] []).vsFits ∧
    (3 : Value 64) ≠ 0 ∧
    (running [0, 7] []).vs = 0 :: 7 :: [] ∧ (running [5] []).vs.length < 2 :=
  ⟨rfl, rfl, rfl, by decide, rfl, by decide⟩

theorem witness_DivisionLaws :
    2 ≤ 16 ∧ (0xFFFF : BitVec 16) ≠ 0 ∧ (0xFFFF : BitVec 16).toInt = -1 ∧
    ¬ ((7 : BitVec 16) = BitVec.intMin 16 ∧ (2 : BitVec 16).toInt = -1) := by decide

theorem witness_WrapLaws :
    -(2 ^ 15) ≤ (7 : BitVec 16).toInt + (1 : BitVec 16).toInt ∧
    (7 : BitVec 16).toInt + (1 : BitVec 16).toInt < 2 ^ 15 ∧
    -(2 ^ 15) ≤ (7 : BitVec 16).toInt - (1 : BitVec 16).toInt ∧
    (7 : BitVec 16).toInt * (1 : BitVec 16).toInt < 2 ^ 15 ∧ (1 : BitVec 16).toInt = 1 ∧
    (0xFFFF : BitVec 16).toInt = -1 := by decide

theorem witness_NotRule :
    Config.vlenWf 64 = true ∧ (running [85] []).vs = 85 :: [] ∧ (running [85] []).vsFits := ⟨rfl, rfl, rfl⟩

theorem witness_ShiftBits : 63 < Config.referenceVlen := by decide

theorem witness_CallRule :
    (running [] []).params.csDepth ≠ some (running [] []).csp ∧
    ({ running [] [2] with params := { Config.Params.reference with csDepth := some 1 } } :
      StateAt 64).params.csDepth = some (running [] [2]).csp := by decide

theorem witness_RetRule : (running [] [4]).cs = 4 :: [] ∧ (running [] []).cs = [] := ⟨rfl, rfl⟩

theorem witness_JifRule :
    (running [0, 3] []).vs = 0 :: 3 :: [] ∧ (0 : Value 64).toInt = 0 ∧ (running [1, 9] []).vs = 1 :: 9 :: [] ∧
    (1 : Value 64).toInt ≠ 0 ∧ (running [0] []).vs.length < 2 := ⟨rfl, by decide, rfl, by decide, by decide⟩

theorem witness_CallThenRet :
    (running [] []).params.csDepth ≠ some (running [] []).csp ∧
    (running [] [4]).cs = ({ running [] [] with cs := [4] } : StateAt 64).cs := ⟨by decide, rfl⟩

theorem witness_DbgRule : (running [7] []).vs = 7 :: [] ∧ (running [] []).vs = [] := ⟨rfl, rfl⟩

end Sys2Proof.Tests
end

section
/-! O35 (R5 with R188 to R190). A step records no error but one whose capacity is bounded: the primitives,
then the instructions, the decoder and the host's events, then the step. -/

namespace Sys2Proof.Machine

variable {w : Nat} {α β : Type} {p : Config.Params} {s t : StateAt w}

/-! ### What may be raised -/

/-- The capacity whose end the error kind reports is bounded; no condition on the kinds that report none. -/
def CapacityBounded (p : Config.Params) : ErrKind → Prop
  | .stackOverflow => p.vsDepth ≠ none
  | .callStackOverflow => p.csDepth ≠ none
  | .programTooLong => p.imemDepth ≠ none
  | .invalidOpcode | .truncatedOperand | .emptyStack | .emptyOperand | .emptyCallStack
  | .notFoundAddressInStore | .divideByZero => True

/-- An error that `t` records stood in `s` already, or its capacity is bounded. -/
def NewErrorBounded (s t : StateAt w) : Prop :=
  ∀ k, t.errKind = some k → s.errKind = some k ∨ CapacityBounded s.params k

/-- `t` has the recorded error and the capacities of `s`. -/
def SameError (s t : StateAt w) : Prop := t.errKind = s.errKind ∧ t.params = s.params

/-- `r` answers something with `Q`, or raises an error whose capacity is bounded. -/
def RaisesBounded (p : Config.Params) (Q : α → Prop) : Except RunError α → Prop
  | .ok a => Q a
  | .error e => CapacityBounded p e.kind

theorem capacityBounded_of_full {n : Nat} {cap : Option Nat} (h : Config.full cap n = true) :
    cap ≠ none := by simp [full_iff.mp h]

theorem newErrorBounded_of_eq (h : t.errKind = s.errKind) : NewErrorBounded s t :=
  fun _ hk => .inl (h ▸ hk)

theorem newErrorBounded_of_none (h : t.errKind = none) : NewErrorBounded s t :=
  fun _ hk => by simp [h] at hk

theorem newErrorBounded_of_some {k : ErrKind} (h : t.errKind = some k) (hk : CapacityBounded s.params k) :
    NewErrorBounded s t :=
  fun _ hk' => .inr (Option.some.inj (h.symm.trans hk') ▸ hk)

/-- The lines of an instruction one after another: each goes on from what the one before it answers. -/
theorem RaisesBounded.bind {Q : α → Prop} {R : β → Prop} {r : Except RunError α}
    {f : α → Except RunError β} (hr : RaisesBounded p Q r) (hf : ∀ a, Q a → RaisesBounded p R (f a)) :
    RaisesBounded p R (r >>= f) := by
  cases r with
  | ok a => exact hf a hr
  | error e => exact hr

/-! ### The primitives (R96 to R100, R46) -/

theorem operand_raisesBounded (p : Config.Params) (o : Operand) :
    RaisesBounded p (fun _ => True) (operand o) := by
  cases o <;> trivial

theorem push_raisesBounded (v : Value w) (h : SameError s t) :
    RaisesBounded s.params (SameError s) (push v t) := by
  obtain ⟨herr, hparams⟩ := h
  cases hf : Config.full t.params.vsDepth t.vsp with
  | true => rw [push_full v hf]; exact capacityBounded_of_full (hparams ▸ hf)
  | false => rw [push_ok v hf]; exact ⟨herr, hparams⟩

theorem pop_raisesBounded (h : SameError s t) :
    RaisesBounded s.params (fun a => SameError s a.2) (pop t) := by
  cases hs : t.vs with
  | nil => rw [pop_nil hs]; trivial
  | cons v rest => rw [pop_cons hs]; exact h

theorem csPush_raisesBounded (q : Pointer w) (h : SameError s t) :
    RaisesBounded s.params (SameError s) (csPush q t) := by
  obtain ⟨herr, hparams⟩ := h
  cases hf : Config.full t.params.csDepth t.csp with
  | true => rw [csPush_full q hf]; exact capacityBounded_of_full (hparams ▸ hf)
  | false => rw [csPush_ok q hf]; exact ⟨herr, hparams⟩

theorem csPop_raisesBounded (h : SameError s t) :
    RaisesBounded s.params (fun a => SameError s a.2) (csPop t) := by
  cases hs : t.cs with
  | nil => rw [csPop_nil hs]; trivial
  | cons q rest => rw [csPop_cons hs]; exact h

theorem heapRead_raisesBounded (p : Config.Params) (k : Byte) (s : StateAt w) :
    RaisesBounded p (fun _ => True) (heapRead k s) := by
  cases hm : Memory.read s.heap k.toNat with
  | none => rw [heapRead_none hm]; trivial
  | some v => rw [heapRead_some hm]; trivial

/-! ### The instructions -/

theorem SameError.refl (s : StateAt w) : SameError s s := ⟨rfl, rfl⟩

theorem binary_raisesBounded {op : Value w → Value w → Except RunError (Value w)}
    (hop : ∀ a b, RaisesBounded s.params (fun _ => True) (op a b)) :
    RaisesBounded s.params (SameError s) (binary op s) :=
  (pop_raisesBounded (.refl s)).bind fun (b, _) h => (pop_raisesBounded h).bind fun (a, _) h =>
    (hop a b).bind fun v _ => (push_raisesBounded v h).bind fun _ h => h

theorem binaryTotal_raisesBounded (f : Value w → Value w → Value w) (s : StateAt w) :
    RaisesBounded s.params (SameError s) (binaryTotal f s) :=
  binary_raisesBounded fun _ _ => trivial

theorem binaryDivide_raisesBounded (f : Value w → Value w → Value w) (s : StateAt w) :
    RaisesBounded s.params (SameError s) (binaryDivide f s) :=
  binary_raisesBounded fun _ b => by cases Alu.divisorIsZero b <;> trivial

/-- The lines of every instruction raise only errors whose capacity is bounded, and record none. -/
theorem exec_raisesBounded (i : Instr) (s : StateAt w) :
    ∃ r, exec i ⟨w, s⟩ = finish s r ∧ RaisesBounded s.params (SameError s) r := by
  have hs := SameError.refl s
  cases i with
  | noop _ | exit _ => exact ⟨.ok _, rfl, hs⟩
  | add _ | sub _ | mul _ | and _ | or _ | xor _ | lsf _ | rsf _ | eq _ | gt _ | lt _ | gte _ | lte _ =>
    exact ⟨_, rfl, binaryTotal_raisesBounded _ s⟩
  | div _ | mod _ => exact ⟨_, rfl, binaryDivide_raisesBounded _ s⟩
  | not _ =>
    exact ⟨_, rfl, (pop_raisesBounded hs).bind fun _ h => (push_raisesBounded _ h).bind fun _ h => h⟩
  | push o =>
    exact ⟨_, rfl, (operand_raisesBounded _ o).bind fun _ _ => (push_raisesBounded _ hs).bind fun _ h => h⟩
  | store o =>
    exact ⟨_, rfl, (operand_raisesBounded _ o).bind fun _ _ => (pop_raisesBounded hs).bind fun _ h => h⟩
  | load o =>
    exact ⟨_, rfl, (operand_raisesBounded _ o).bind fun k _ => (heapRead_raisesBounded _ k s).bind fun _ _ =>
      (push_raisesBounded _ hs).bind fun _ h => h⟩
  | proc o | jmp o => exact ⟨_, rfl, (operand_raisesBounded _ o).bind fun _ _ => hs⟩
  | call o =>
    exact ⟨_, rfl, (operand_raisesBounded _ o).bind fun _ _ => (csPush_raisesBounded _ hs).bind fun _ h => h⟩
  | ret _ => exact ⟨_, rfl, (csPop_raisesBounded hs).bind fun _ h => h⟩
  | jif _ =>
    refine ⟨_, rfl, (pop_raisesBounded hs).bind fun (c, _) h => (pop_raisesBounded h).bind fun _ h => ?_⟩
    cases conditionIsZero c <;> exact h
  | dbg _ => exact ⟨_, rfl, (pop_raisesBounded hs).bind fun _ h => h⟩

theorem exec_newErrorBounded {i : Instr} (hx : exec i ⟨w, s⟩ = .next ⟨w, t⟩) : NewErrorBounded s t := by
  obtain ⟨r, hr, hb⟩ := exec_raisesBounded i s
  rcases finish_inv (hr ▸ hx) with rfl | ⟨e, rfl, rfl⟩
  · exact newErrorBounded_of_eq hb.1
  · exact newErrorBounded_of_some rfl hb

/-! ### The step -/

theorem execStep_newErrorBounded (hx : execStep s = .next ⟨w, t⟩) : NewErrorBounded s t := by
  cases hf : s.imem[s.ip.toNat]? with
  | none =>
    rw [execStep_pastEnd (List.getElem?_eq_none_iff.mp hf)] at hx
    cases hx
    exact newErrorBounded_of_eq rfl
  | some i => exact exec_newErrorBounded (execStep_fetched hf ▸ hx)

theorem decodeStep_newErrorBounded (s : StateAt w) : NewErrorBounded s (decodeStep s) := by
  unfold decodeStep
  split
  · exact newErrorBounded_of_eq rfl
  · exact newErrorBounded_of_some rfl trivial
  · exact newErrorBounded_of_some rfl trivial
  · split
    · exact newErrorBounded_of_some rfl (capacityBounded_of_full ‹_›)
    · exact newErrorBounded_of_eq rfl

theorem machineStep_newErrorBounded (hx : machineStep s = .next ⟨w, t⟩) : NewErrorBounded s t := by
  cases hst : s.status with
  | decoding =>
    rw [machineStep_decoding hst] at hx
    cases hx
    exact decodeStep_newErrorBounded s
  | running => exact execStep_newErrorBounded (machineStep_running hst ▸ hx)
  | idle | ready | done | fault =>
    rw [machineStep_waiting (by simp [StateAt.busy, hst])] at hx
    cases hx
    exact newErrorBounded_of_eq rfl

theorem commandEffect_newErrorBounded (c : HostCommand) (s : StateAt w) :
    NewErrorBounded s (commandEffect c s) := by
  cases c with
  | loadProgram _ => exact newErrorBounded_of_eq rfl
  | decode | loadImem _ | run => exact newErrorBounded_of_none rfl

/-- No event from outside records an error: it leaves the recorded one or clears it. -/
theorem hostEvent_newErrorBounded (e : HostEvent) (s : StateAt w) : NewErrorBounded s (hostEvent e s) := by
  cases e with
  | reset => exact newErrorBounded_of_none rfl
  | command c =>
    dsimp only [hostEvent]
    split
    · exact commandEffect_newErrorBounded c s
    · exact newErrorBounded_of_eq rfl

/-- An error that a step records anew is one whose capacity is bounded. -/
theorem step_newErrorBounded (hx : step ⟨w, s⟩ = .next ⟨w, t⟩) : NewErrorBounded s t := by
  rcases quiet_or_event s with hq | ⟨e, rest, he⟩
  · exact machineStep_newErrorBounded (s := s.tick) (step_quiet hq ▸ hx)
  · rw [step_event he] at hx
    cases hx
    exact hostEvent_newErrorBounded e { s with host := rest }

/-- Settles O35: of an error with its capacity unbounded, `step_newErrorBounded` leaves only that it stood
before the step. -/
theorem unboundedNeverOverflows : Obligations.UnboundedNeverOverflows := by
  intro w s t _ hx
  have hnew := step_newErrorBounded hx
  exact ⟨fun hcap hk => (hnew _ hk).resolve_right (absurd hcap),
    fun hcap hk => (hnew _ hk).resolve_right (absurd hcap),
    fun hcap hk => (hnew _ hk).resolve_right (absurd hcap)⟩

end Sys2Proof.Machine
end

section
/-! O2 (R20, R61, R64, R77). One instruction read from bytes. -/

namespace Sys2Proof

/-- Everything the decoder can read: an opcode byte of the map, the operand byte when the opcode is
operand-bearing, and the bytes it leaves. -/
theorem decode_inv {bytes rest : List Byte} {i : Instr} (h : decode bytes = .ok (i, rest)) :
    ∃ b make o, lookup b = some make ∧ o.isSome = bearing b ∧ i = make o ∧
      bytes = b :: o.toList ++ rest := by
  cases bytes with
  | nil => cases h
  | cons b bs =>
    cases hl : lookup b with
    | none => simp [decode, hl] at h
    | some make =>
      cases hb : bearing b with
      | false =>
        simp only [decode, hl, hb, Bool.false_eq_true, if_false, Except.ok.injEq, Prod.mk.injEq] at h
        obtain ⟨rfl, rfl⟩ := h
        exact ⟨b, make, none, hl, hb.symm, rfl, rfl⟩
      | true =>
        cases bs with
        | nil => simp [decode, hl, hb] at h
        | cons k bs =>
          simp only [decode, hl, hb, if_true, Except.ok.injEq, Prod.mk.injEq] at h
          obtain ⟨rfl, rfl⟩ := h
          exact ⟨b, make, some k, hl, hb.symm, rfl, rfl⟩

/-- Settles O2: what the decoder reads is an entry of the map with its operand field, whose opcode byte,
operand and well-formedness `lookup_some` gives. -/
theorem encodeOfDecode : Obligations.EncodeOfDecode := by
  intro bytes rest i h
  obtain ⟨b, make, o, hl, ho, rfl, rfl⟩ := decode_inv h
  obtain ⟨hbyte, hoperand, hwf⟩ := lookup_some hl o
  refine ⟨?_, by simp only [encode, hbyte, hoperand]⟩
  rw [hwf, ← ho]
  cases o <;> rfl

end Sys2Proof
end

section
/-! O27 and O26 (R13 to R25, R29, R69 to R76, R192, R214). The invariant: of a machine after reset, then
kept by each kind of step: an event, a decoder step, an instruction. -/

namespace Sys2Proof.Machine

variable {w : Nat} {s t : StateAt w}

/-! ### Reset -/

/-- No entries at all fit into every capacity. -/
@[simp] theorem fits_zero (cap : Option Nat) : Config.fits cap 0 = true := by
  cases cap with
  | none => rfl
  | some c => exact decide_eq_true (Nat.zero_le c)

/-- After reset, on every machine of an admissible width with admissible parameters. -/
theorem initial_inv {p : Config.Params} (hw : Config.vlenWf w = true) (hp : p.wf w = true)
    (h : List HostSlot) : (StateAt.initial p h : StateAt w).Inv where
  vlen_wf := hw
  params_wf := hp
  vs_fits := fits_zero _
  cs_fits := fits_zero _
  imem_fits := fits_zero _
  prog_fits := fits_zero _
  heap_wf := Memory.empty_wf
  idle_invalid _ := rfl
  decoding_invalid _ := rfl
  valid_of_live := nofun
  empty_of_invalid _ _ := rfl
  decoding_scanned := nofun
  error_iff_fault := ⟨nofun, nofun⟩
  run_error := nofun
  no_run_error _ := ⟨rfl, nofun⟩
  no_error_no_info _ := rfl

/-- Settles O26: the reference width and parameters are admissible. -/
theorem invariantReset : Obligations.InvariantReset := initial_inv (by decide) (by decide) []

/-! ### The host's events -/

/-- The outside world's schedule is no part of the invariant. -/
theorem StateAt.Inv.withHost (hs : s.Inv) (h : List HostSlot) : ({ s with host := h } : StateAt w).Inv :=
  { hs with }

/-- Outside `Fault` no error is recorded (R23). -/
theorem StateAt.Inv.errKind_eq_none (hs : s.Inv) (h : s.status ≠ .fault) : s.errKind = none := by
  have hsome := mt hs.error_iff_fault.1 h
  simpa using hsome

/-- Outside `Fault` no pointer is recorded (R24). -/
theorem StateAt.Inv.errIpValid_eq_false (hs : s.Inv) (h : s.status ≠ .fault) : s.errIpValid = false := by
  simpa using mt (fun hv => (hs.run_error hv).1) h

/-- An accepted command keeps the invariant: the machine is not busy, so a new program is under no decode,
and the other three commands clear the error they may find. -/
theorem commandEffect_inv {c : HostCommand} (hs : s.Inv) (ha : accepted c s = true) :
    (commandEffect c s).Inv := by
  have hbusy : s.busy = false := by
    cases hb : s.busy with
    | false => rfl
    | true => rw [accepted_of_busy hb] at ha; cases ha
  cases c with
  | loadProgram bytes =>
    have hfits : Config.fits s.params.progMax bytes.length = true := by
      simpa [accepted, hbusy] using ha
    have hidle : s.status ≠ .decoding := fun h => by simp [StateAt.busy, h] at hbusy
    exact { hs with
      prog_fits := hfits
      decoding_scanned := fun h => absurd h hidle }
  | decode =>
    exact { hs with
      imem_fits := fits_zero _
      idle_invalid := nofun
      decoding_invalid := fun _ => rfl
      valid_of_live := nofun
      empty_of_invalid := fun _ _ => rfl
      decoding_scanned := fun _ => ⟨Nat.zero_le _, rfl, nofun⟩
      error_iff_fault := ⟨nofun, nofun⟩
      run_error := nofun
      no_run_error := fun _ => ⟨rfl, nofun⟩
      no_error_no_info := fun _ => rfl }
  | loadImem entries =>
    have hfits : Config.fits s.params.imemDepth entries.length = true := by
      simp only [accepted, Bool.and_eq_true] at ha
      exact ha.2.2
    exact { hs with
      imem_fits := hfits
      idle_invalid := nofun
      decoding_invalid := nofun
      valid_of_live := fun _ => rfl
      empty_of_invalid := nofun
      decoding_scanned := nofun
      error_iff_fault := ⟨nofun, nofun⟩
      run_error := nofun
      no_run_error := fun _ => ⟨rfl, nofun⟩
      no_error_no_info := fun _ => rfl }
  | run =>
    have hvalid : s.imemValid = true := by simpa [accepted, hbusy] using ha
    exact { hs with
      vs_fits := fits_zero _
      cs_fits := fits_zero _
      heap_wf := Memory.empty_wf
      idle_invalid := nofun
      decoding_invalid := nofun
      valid_of_live := fun _ => hvalid
      empty_of_invalid := fun h => nomatch h.symm.trans hvalid
      decoding_scanned := nofun
      error_iff_fault := ⟨nofun, nofun⟩
      run_error := nofun
      no_run_error := fun _ => ⟨rfl, nofun⟩
      no_error_no_info := fun _ => rfl }

theorem hostEvent_inv (hs : s.Inv) (e : HostEvent) : (hostEvent e s).Inv := by
  cases e with
  | reset => exact initial_inv hs.vlen_wf hs.params_wf s.host
  | command c =>
    cases ha : accepted c s with
    | true => simpa only [hostEvent, ha, if_true] using commandEffect_inv hs ha
    | false => simpa only [hostEvent, ha, Bool.false_eq_true, if_false] using hs

/-! ### The decoder -/

/-- A failing decoder leaves no sequence and no pointer (R75). -/
theorem decodeFault_inv {kind : ErrKind} (hs : s.Inv) (hk : kind.isDecodeTime = true) (info : Byte) :
    (decodeFault kind info s).Inv :=
  { hs with
    imem_fits := fits_zero _
    idle_invalid := nofun
    decoding_invalid := nofun
    valid_of_live := nofun
    empty_of_invalid := fun _ _ => rfl
    decoding_scanned := nofun
    error_iff_fault := ⟨fun _ => rfl, fun _ => rfl⟩
    run_error := nofun
    no_run_error := fun _ => ⟨rfl, fun _ hk' => ⟨Option.some.inj hk' ▸ hk, rfl⟩⟩
    no_error_no_info := nofun }

/-- One instruction more is the encoding of the bytes scanned with it (R70, R76). -/
theorem scanned_append {prog rest : List Byte} {imem : List Instr} {i : Instr} {d : Nat}
    (hd : d ≤ prog.length) (himem : encodeSeq imem = prog.take d) (hi : encode i ++ rest = prog.drop d) :
    d + (encode i).length ≤ prog.length ∧
      encodeSeq (imem ++ [i]) = prog.take (d + (encode i).length) := by
  have hlen : (encode i).length + rest.length = prog.length - d := by
    rw [← List.length_append, hi, List.length_drop]
  refine ⟨by omega, ?_⟩
  rw [encodeSeq_append, himem, List.take_add, ← hi, List.take_left]
  simp [encodeSeq]

theorem decodeStep_inv (hs : s.Inv) (hd : s.status = .decoding) : (decodeStep s).Inv := by
  have hkind := hs.errKind_eq_none (by simp [hd])
  have hvalid := hs.errIpValid_eq_false (by simp [hd])
  rcases decodeStep_cases s with ⟨_, h⟩ | ⟨kind, info, hk, h⟩ | ⟨i, rest, hi, hroom, h⟩
  · rw [h]
    exact { hs with
      idle_invalid := nofun
      decoding_invalid := nofun
      valid_of_live := fun _ => rfl
      empty_of_invalid := nofun
      decoding_scanned := nofun
      error_iff_fault := by simp [hkind]
      run_error := fun hv => nomatch hvalid.symm.trans hv
      no_run_error := fun hv => ⟨(hs.no_run_error hv).1, by simp [hkind]⟩ }
  · rw [h]
    exact decodeFault_inv hs hk info
  · rw [h]
    obtain ⟨hpos, himem, hwf⟩ := hs.decoding_scanned hd
    obtain ⟨hi_wf, hi_bytes⟩ := encodeOfDecode _ _ _ hi
    obtain ⟨hpos', himem'⟩ := scanned_append hpos himem hi_bytes
    have hwf' : ∀ j ∈ s.imem ++ [i], j.wellFormed = true := by
      simpa [or_imp, forall_and, hi_wf] using hwf
    exact { hs with
      imem_fits := by simpa [StateAt.ilen] using fits_succ hs.imem_fits hroom
      empty_of_invalid := fun _ h => absurd hd h
      decoding_scanned := fun _ => ⟨hpos', himem', hwf'⟩
      run_error := fun hv => nomatch hvalid.symm.trans hv }

/-! ### The engine -/

/-- A running machine may change `ip`, the stacks, the heap and the debug log within their bounds, and
stop (R93). -/
theorem running_inv (hs : s.Inv) (hr : s.status = .running) {ip : Pointer w} {vs : List (Value w)}
    {cs : List (Pointer w)} {heap : Memory w} {log : List (DebugEvent w)} {st : Status}
    (hvs : Config.fits s.params.vsDepth vs.length = true)
    (hcs : Config.fits s.params.csDepth cs.length = true) (hheap : Memory.wf heap)
    (hst : st = .running ∨ st = .done) :
    ({ s with ip := ip, vs := vs, cs := cs, heap := heap, dbgLog := log, status := st } :
      StateAt w).Inv := by
  have hkind := hs.errKind_eq_none (by simp [hr])
  have hvalid := hs.errIpValid_eq_false (by simp [hr])
  have himem := hs.valid_of_live (.inr (.inl hr))
  exact { hs with
    vs_fits := hvs
    cs_fits := hcs
    heap_wf := hheap
    idle_invalid := by rintro rfl; simp at hst
    decoding_invalid := by rintro rfl; simp at hst
    valid_of_live := fun _ => himem
    empty_of_invalid := fun h => nomatch h.symm.trans himem
    decoding_scanned := by rintro rfl; simp at hst
    error_iff_fault := by rcases hst with rfl | rfl <;> simp [hkind]
    run_error := fun hv => nomatch hvalid.symm.trans hv }

/-- The error kinds of the engine (R180). -/
theorem RunError.kind_isDecodeTime (e : RunError) : e.kind.isDecodeTime = false := by cases e <;> rfl

/-- A run-time error is located at the instruction fetched (R24, R192). -/
theorem runFault_inv (hs : s.Inv) (hr : s.status = .running) (hip : s.ip.toNat < s.ilen) (e : RunError) :
    (runFault e s).Inv :=
  have himem := hs.valid_of_live (.inr (.inl hr))
  { hs with
    idle_invalid := nofun
    decoding_invalid := nofun
    valid_of_live := nofun
    empty_of_invalid := fun h => nomatch h.symm.trans himem
    decoding_scanned := nofun
    error_iff_fault := ⟨fun _ => rfl, fun _ => rfl⟩
    run_error := fun _ =>
      ⟨rfl, rfl, hip, himem, fun _ hk => Option.some.inj hk ▸ e.kind_isDecodeTime⟩
    no_run_error := nofun
    no_error_no_info := nofun }

/-- A two-operand instruction leaves one Value fewer. -/
theorem completedTwo_inv {f : Value w → Value w → Value w} (h : CompletedTwo f s t) (hs : s.Inv)
    (hr : s.status = .running) : t.Inv := by
  obtain ⟨a, b, rest, hvs, rfl⟩ := h
  exact running_inv hs hr (fits_mono hs.vs_fits (by simp [StateAt.vsp, hvs])) hs.cs_fits hs.heap_wf
    (.inl hr)

theorem completed_inv {i : Instr} (h : Completed i s t) (hs : s.Inv) (hr : s.status = .running) :
    t.Inv := by
  cases i with
  | noop _ =>
    cases h
    exact running_inv hs hr hs.vs_fits hs.cs_fits hs.heap_wf (.inl hr)
  | exit _ =>
    cases h
    exact running_inv hs hr hs.vs_fits hs.cs_fits hs.heap_wf (.inr rfl)
  | proc _ | jmp _ =>
    obtain ⟨k, _, rfl⟩ := h
    exact running_inv hs hr hs.vs_fits hs.cs_fits hs.heap_wf (.inl hr)
  | push _ =>
    obtain ⟨k, _, hroom, rfl⟩ := h
    exact running_inv hs hr (fits_succ hs.vs_fits hroom) hs.cs_fits hs.heap_wf (.inl hr)
  | load _ =>
    obtain ⟨k, v, _, _, hroom, rfl⟩ := h
    exact running_inv hs hr (fits_succ hs.vs_fits hroom) hs.cs_fits hs.heap_wf (.inl hr)
  | store _ =>
    obtain ⟨k, v, rest, _, hvs, rfl⟩ := h
    exact running_inv hs hr (fits_mono hs.vs_fits (by simp [StateAt.vsp, hvs])) hs.cs_fits
      (Memory.write_wf hs.heap_wf _ v (heapAddress_lt k)) (.inl hr)
  | add _ | sub _ | mul _ | and _ | or _ | xor _ | lsf _ | rsf _ | eq _ | gt _ | lt _ | gte _ | lte _ =>
    exact completedTwo_inv h hs hr
  | div _ | mod _ => exact completedTwo_inv h.1 hs hr
  | not _ =>
    obtain ⟨a, rest, hvs, rfl⟩ := h
    exact running_inv hs hr (fits_mono hs.vs_fits (by simp [StateAt.vsp, hvs])) hs.cs_fits hs.heap_wf
      (.inl hr)
  | call _ =>
    obtain ⟨k, _, hroom, rfl⟩ := h
    exact running_inv hs hr hs.vs_fits (fits_succ hs.cs_fits hroom) hs.heap_wf (.inl hr)
  | ret _ =>
    obtain ⟨p, rest, hcs, rfl⟩ := h
    exact running_inv hs hr hs.vs_fits (fits_mono hs.cs_fits (by simp [StateAt.csp, hcs])) hs.heap_wf
      (.inl hr)
  | jif _ =>
    obtain ⟨c, p, rest, hvs, rfl⟩ := h
    exact running_inv hs hr (fits_mono hs.vs_fits (by simp [StateAt.vsp, hvs]; omega)) hs.cs_fits
      hs.heap_wf (.inl hr)
  | dbg _ =>
    obtain ⟨v, rest, hvs, rfl⟩ := h
    exact running_inv hs hr (fits_mono hs.vs_fits (by simp [StateAt.vsp, hvs])) hs.cs_fits hs.heap_wf
      (.inl hr)

/-- A fetched instruction, whether it raises or completes, keeps the invariant. -/
theorem exec_inv {i : Instr} (hx : exec i ⟨w, s⟩ = .next ⟨w, t⟩) (hs : s.Inv) (hr : s.status = .running)
    (hip : s.ip.toNat < s.ilen) : t.Inv := by
  rcases exec_cases hx with ⟨e, rfl⟩ | h
  · exact runFault_inv hs hr hip e
  · exact completed_inv h hs hr

/-! ### The step -/

/-- An engine step runs past the end, or executes the instruction at `ip`. -/
theorem execStep_cases (s : StateAt w) :
    (s.ilen ≤ s.ip.toNat ∧ execStep s = .next ⟨w, { s with status := .done }⟩) ∨
    (∃ i, s.ip.toNat < s.ilen ∧ s.imem[s.ip.toNat]? = some i ∧ execStep s = exec i ⟨w, s⟩) := by
  cases hf : s.imem[s.ip.toNat]? with
  | none =>
    have hend := List.getElem?_eq_none_iff.1 hf
    exact .inl ⟨hend, execStep_pastEnd hend⟩
  | some i => exact .inr ⟨i, (List.getElem?_eq_some_iff.1 hf).1, rfl, execStep_fetched hf⟩

/-- The machine's own step answers a state of the same width that meets the invariant. -/
theorem machineStep_inv (hs : s.Inv) : ∃ t : StateAt w, machineStep s = .next ⟨w, t⟩ ∧ t.Inv := by
  cases hst : s.status with
  | decoding => exact ⟨_, machineStep_decoding hst, decodeStep_inv hs hst⟩
  | running =>
    rw [machineStep_running hst]
    rcases execStep_cases s with ⟨_, h⟩ | ⟨i, hip, _, h⟩
    · exact ⟨_, h, running_inv hs hst hs.vs_fits hs.cs_fits hs.heap_wf (.inr rfl)⟩
    · obtain ⟨t, ht⟩ := exec_next i s
      exact ⟨t, h.trans ht, exec_inv ht hs hst hip⟩
  | idle | ready | done | fault =>
    exact ⟨s, machineStep_waiting (by simp [StateAt.busy, hst]), hs⟩

/-- Settles O27: an event keeps the invariant by `hostEvent_inv`, the machine's own step by
`machineStep_inv`. -/
theorem invariantStep : Obligations.InvariantStep := by
  rintro ⟨w, s⟩ t hs hx
  rcases quiet_or_event s with hq | ⟨e, rest, he⟩
  · obtain ⟨u, hu, hinv⟩ := machineStep_inv (s := s.tick) (StateAt.Inv.withHost hs s.host.tail)
    rw [step_quiet hq, hu] at hx
    cases hx
    exact hinv
  · rw [step_event he] at hx
    cases hx
    exact hostEvent_inv (StateAt.Inv.withHost hs rest) e

end Sys2Proof.Machine
end

section
/-! O32 (R10, R14, R16, R17, R27, R42). What an instruction leaves as it was. -/

namespace Sys2Proof.Machine

variable {w : Nat} {s t : StateAt w} {i : Instr}

/-- What `i` leaves unchanged when it completes, part by part of the state. -/
structure Frame (i : Instr) (s t : StateAt w) : Prop where
  heap : ∀ a, (∀ k, i = .store (some k) → a ≠ heapAddress k) → Memory.read t.heap a = Memory.read s.heap a
  cs : (∀ o, i ≠ .call o) → (∀ o, i ≠ .ret o) → t.cs = s.cs
  dbgLog : (∀ o, i ≠ .dbg o) → t.dbgLog = s.dbgLog
  vs : i ∈ [.noop i.operand, .proc i.operand, .call i.operand, .ret i.operand, .jmp i.operand,
    .exit i.operand] → t.vs = s.vs
  status : (∀ o, i ≠ .exit o) → t.status = s.status
  errors : t.errKind = s.errKind ∧ t.errIpValid = s.errIpValid ∧ t.errIp = s.errIp ∧ t.errInfo = s.errInfo

/-- Of an instruction that may use the value stack and changes nothing beside it and `ip`. -/
theorem frame_of_stack (vs : List (Value w)) (ip : Pointer w)
    (h : i ∉ [.noop i.operand, .proc i.operand, .call i.operand, .ret i.operand, .jmp i.operand,
      .exit i.operand]) : Frame i s { s with vs := vs, ip := ip } :=
  ⟨fun _ _ => rfl, fun _ _ => rfl, fun _ => rfl, fun hi => absurd hi h, fun _ => rfl, rfl, rfl, rfl, rfl⟩

/-- Of an instruction that changes `ip` alone. -/
theorem frame_of_ip (ip : Pointer w) : Frame i s { s with ip := ip } :=
  ⟨fun _ _ => rfl, fun _ _ => rfl, fun _ => rfl, fun _ => rfl, fun _ => rfl, rfl, rfl, rfl, rfl⟩

theorem completed_frame (h : Completed i s t) : Frame i s t := by
  cases i with
  | noop _ => cases h; exact frame_of_ip _
  | proc _ | jmp _ => obtain ⟨k, _, rfl⟩ := h; exact frame_of_ip _
  | push _ => obtain ⟨k, _, _, rfl⟩ := h; exact frame_of_stack _ _ (by simp)
  | load _ => obtain ⟨k, v, _, _, _, rfl⟩ := h; exact frame_of_stack _ _ (by simp)
  | add _ | sub _ | mul _ | and _ | or _ | xor _ | lsf _ | rsf _ | eq _ | gt _ | lt _ | gte _ | lte _ =>
    obtain ⟨a, b, rest, _, rfl⟩ := h
    exact frame_of_stack _ _ (by simp)
  | div _ | mod _ => obtain ⟨⟨a, b, rest, _, rfl⟩, _⟩ := h; exact frame_of_stack _ _ (by simp)
  | not _ => obtain ⟨a, rest, _, rfl⟩ := h; exact frame_of_stack _ _ (by simp)
  | jif _ => obtain ⟨c, p, rest, _, rfl⟩ := h; exact frame_of_stack _ _ (by simp)
  | store _ =>
    obtain ⟨k, v, rest, rfl, _, rfl⟩ := h
    exact ⟨fun a ha => Memory.read_write_other _ _ _ _ (ha k rfl), fun _ _ => rfl, fun _ => rfl, by simp,
      fun _ => rfl, rfl, rfl, rfl, rfl⟩
  | call o =>
    obtain ⟨k, _, _, rfl⟩ := h
    exact ⟨fun _ _ => rfl, fun hi => absurd rfl (hi o), fun _ => rfl, fun _ => rfl, fun _ => rfl,
      rfl, rfl, rfl, rfl⟩
  | ret o =>
    obtain ⟨p, rest, _, rfl⟩ := h
    exact ⟨fun _ _ => rfl, fun _ hi => absurd rfl (hi o), fun _ => rfl, fun _ => rfl, fun _ => rfl,
      rfl, rfl, rfl, rfl⟩
  | dbg o =>
    obtain ⟨v, rest, _, rfl⟩ := h
    exact ⟨fun _ _ => rfl, fun _ _ => rfl, fun hi => absurd rfl (hi o), by simp, fun _ => rfl,
      rfl, rfl, rfl, rfl⟩
  | exit o =>
    cases h
    exact ⟨fun _ _ => rfl, fun _ _ => rfl, fun _ => rfl, fun _ => rfl, fun hi => absurd rfl (hi o),
      rfl, rfl, rfl, rfl⟩

/-- Settles O32: raising changes the error registers and `STATUS` only (R101, R192); completing changes what
`completed_frame` leaves open. -/
theorem instructionFrames : Obligations.InstructionFrames := by
  intro i w s t hx
  rcases exec_cases hx with ⟨e, rfl⟩ | hc
  · exact ⟨fun _ _ => rfl, fun _ _ => rfl, fun _ => rfl, fun _ => rfl, fun ht => absurd rfl ht⟩
  · obtain ⟨hheap, hcs, hlog, hvs, _, herrors⟩ := completed_frame hc
    exact ⟨hheap, hcs, hlog, hvs, fun _ => herrors⟩

end Sys2Proof.Machine
end

section
/-! What the host reads: O17 (R26, R29), O18 (R22, R180), O19 (R11 to R26, R93), O20 (R12, R14, R16, R212). -/

namespace Sys2Proof.Machine

variable {w : Nat} {s t : StateAt w}

/-! ### The numbers of `STATUS` and `ERR_KIND` -/

/-- R22's table: the status with each number. -/
def statusTable : List Status := [.idle, .decoding, .ready, .running, .done, .fault]

/-- R180's table: what `ERR_KIND` says with each number. -/
def errKindTable : List (Option ErrKind) :=
  [none, some .invalidOpcode, some .truncatedOperand, some .emptyStack, some .emptyOperand,
    some .emptyCallStack, some .notFoundAddressInStore, some .divideByZero, some .stackOverflow,
    some .callStackOverflow, some .programTooLong]

/-- The number of `ERR_KIND`, 0 without an error. -/
def errKindNumber : Option ErrKind → Nat
  | none => 0
  | some k => k.code.toNat

theorem hostReadReg_errKind (s : StateAt w) : hostReadReg .errKind s = errKindNumber s.errKind := by
  cases h : s.errKind <;> simp [hostReadReg, errKindNumber, h]

theorem statusTable_code (x : Status) : statusTable[x.code.toNat]? = some x := by cases x <;> rfl

theorem errKindTable_number (x : Option ErrKind) : errKindTable[errKindNumber x]? = some x := by
  rcases x with _ | x
  · rfl
  · cases x <;> rfl

/-- Numbers that point into a table of what they stand for are below its length. -/
theorem lt_length_of_table {α : Type} {table : List α} {number : α → Nat}
    (h : ∀ x, table[number x]? = some x) (x : α) : number x < table.length :=
  (List.getElem?_eq_some_iff.1 (h x)).1

/-- Numbers that point into a table of what they stand for tell it apart. -/
theorem number_eq_iff_of_table {α : Type} {table : List α} {number : α → Nat}
    (h : ∀ x, table[number x]? = some x) (x y : α) : number x = number y ↔ x = y :=
  ⟨fun he => Option.some.inj ((h x).symm.trans (he ▸ h y)), fun he => he ▸ rfl⟩

theorem hostReadReg_status_eq_iff (s : StateAt w) (x : Status) :
    hostReadReg .status s = x.code.toNat ↔ s.status = x :=
  number_eq_iff_of_table statusTable_code s.status x

theorem hostReadReg_errKind_eq_iff (s : StateAt w) (x : Option ErrKind) :
    hostReadReg .errKind s = errKindNumber x ↔ s.errKind = x := by
  rw [hostReadReg_errKind, number_eq_iff_of_table errKindTable_number]

/-- Settles O18: each number is the code of one status or error kind, and the codes point into the tables
of R22 and R180. -/
theorem statusAndErrorNumbers : Obligations.StatusAndErrorNumbers := by
  refine ⟨fun w s => ⟨lt_length_of_table statusTable_code s.status, ?_⟩, fun w s => ?_, fun w s => ?_⟩
  · rw [hostReadReg_errKind]
    exact lt_length_of_table errKindTable_number s.errKind
  · have read := hostReadReg_status_eq_iff s
    exact ⟨read .idle, read .decoding, read .ready, read .running, read .done, read .fault⟩
  · have read := hostReadReg_errKind_eq_iff s
    exact ⟨read none, read (some .invalidOpcode), read (some .truncatedOperand), read (some .emptyStack),
      read (some .emptyOperand), read (some .emptyCallStack), read (some .notFoundAddressInStore),
      read (some .divideByZero), read (some .stackOverflow), read (some .callStackOverflow),
      read (some .programTooLong)⟩

/-! ### The other registers -/

/-- `DPOS` has a meaning in `Idle`, in `Decoding` and after a decoder's failure (R19, R29). -/
theorem dposMeant_of (h : s.status = .idle ∨ s.status = .decoding ∨
    (s.status = .fault ∧ s.errIpValid = false)) : s.dposMeant = true := by
  rcases h with h | h | ⟨h, hv⟩
  · simp [StateAt.dposMeant, h]
  · simp [StateAt.dposMeant, h]
  · simp [StateAt.dposMeant, h, hv]

/-- Of the instructions only EXIT ends a run with success, and it changes `STATUS` alone (R93). -/
theorem exec_done {i : Instr} (hx : exec i ⟨w, s⟩ = .next ⟨w, t⟩) (hr : s.status = .running)
    (ht : t.status = .done) : (∃ o, i = .exit o) ∧ t = { s with status := .done } := by
  rcases exec_cases hx with ⟨e, rfl⟩ | hc
  · cases ht
  · by_cases hexit : ∃ o, i = .exit o
    · obtain ⟨o, rfl⟩ := hexit
      exact ⟨⟨o, rfl⟩, hc⟩
    · have hst := (completed_frame hc).status fun o ho => hexit ⟨o, ho⟩
      rw [ht, hr] at hst
      cases hst

/-- A running machine that ends with success ran past the end or executed an EXIT, and only `STATUS`
tells of it. -/
theorem execStep_done (hx : execStep s = .next ⟨w, t⟩) (hr : s.status = .running)
    (ht : t.status = .done) :
    t = { s with status := .done } ∧
      (s.ilen ≤ s.ip.toNat ∨ s.ip.toNat < s.ilen ∧ ∃ o, s.imem[s.ip.toNat]? = some (.exit o)) := by
  rcases execStep_cases s with ⟨hend, h⟩ | ⟨i, hip, hi, h⟩
  · rw [h] at hx
    cases hx
    exact ⟨rfl, .inl hend⟩
  · obtain ⟨⟨o, rfl⟩, ht'⟩ := exec_done (h.symm.trans hx) hr ht
    exact ⟨ht', .inr ⟨hip, o, hi⟩⟩

/-- Settles O19: a successful end of a run leaves `ip` and the sequence, and `execStep_done` says which end
it was. -/
theorem hostReadsRegisters : Obligations.HostReadsRegisters := by
  refine ⟨fun w s => ⟨?_, rfl, rfl, rfl, rfl, rfl, rfl, ?_, rfl, fun h => hostReadReg_dpos (dposMeant_of h)⟩,
    fun w s t hq hr hx ht => ?_⟩
  · cases h : s.errIpValid <;> simp [hostReadReg, h]
  · cases h : s.imemValid <;> simp [hostReadReg, h]
  · rw [step_quiet hq, machineStep_running (by simpa using hr)] at hx
    obtain ⟨rfl, hend⟩ := execStep_done hx hr ht
    change (s.ip.toNat < s.ilen ↔ _) ∧ (s.ilen ≤ s.ip.toNat ↔ _)
    refine ⟨⟨fun hip => ?_, fun ⟨o, ho⟩ => (List.getElem?_eq_some_iff.1 ho).1⟩, Iff.rfl⟩
    rcases hend with hend | ⟨_, hexit⟩
    · exact absurd hip (Nat.not_lt.2 hend)
    · exact hexit

/-! ### The stacks and the heap -/

/-- Reading a list that is held top first from its bottom. -/
theorem reverse_getElem?_eq_some_iff {α : Type} (l : List α) (i : Nat) (a : α) :
    l.reverse[i]? = some a ↔ i < l.length ∧ l[l.length - 1 - i]? = some a := by
  by_cases hi : i < l.length
  · rw [List.getElem?_reverse hi]
    simp [hi]
  · rw [List.getElem?_eq_none (by simpa using hi)]
    simp [hi]

/-- Settles O20: outside `Running` the reads are those of the lists themselves. -/
theorem hostReadsLiveEntries : Obligations.HostReadsLiveEntries := by
  refine fun w s => ⟨fun hr => ⟨fun i v => ?_, fun i p => ?_, fun a => ?_⟩, fun hr i a => ?_⟩
  · rw [hostReadVs, if_neg hr]
    exact reverse_getElem?_eq_some_iff s.vs i v
  · rw [hostReadCs, if_neg hr]
    exact reverse_getElem?_eq_some_iff s.cs i p
  · rw [hostReadHeap, if_neg hr, heapAddress]
  · simp only [hostReadVs, hostReadCs, hostReadHeap, hr, if_true, and_self]

/-- Settles O17: `DPOS` has its meaning after reset, and every list read is empty. -/
theorem resetReads : Obligations.ResetReads := by
  refine ⟨fun r => ?_, fun i => ⟨rfl, rfl⟩, fun a => rfl, rfl⟩
  cases r with
  | dpos => exact hostReadReg_dpos rfl
  | _ => rfl

end Sys2Proof.Machine
end

section
/-! O36 (R5, R11). Where `ip` stays below 2^PW. -/

namespace Sys2Proof.Machine

variable {w : Nat} {s : StateAt w}

/-- A bounded instruction memory leaves 256 numbers of a Pointer above its last index (R5). -/
theorem imemDepth_lt {p : Config.Params} {c : Nat} (hp : p.wf w = true) (hc : p.imemDepth = some c) :
    c + 256 < 2 ^ Config.PW w := by
  simp only [Config.Params.wf, hc, Bool.and_eq_true, decide_eq_true_eq] at hp
  exact hp.2.2

/-- At an instruction of a bounded memory, 256 more than `ip` is still a Pointer. -/
theorem ip_add_lt {c : Nat} (hs : s.Inv) (hc : s.params.imemDepth = some c) (hip : s.ip.toNat < s.ilen) :
    s.ip.toNat + 256 < 2 ^ Config.PW w := by
  have hdepth := imemDepth_lt hs.params_wf hc
  have hfits := hs.imem_fits
  simp only [hc, Config.fits, decide_eq_true_eq] at hfits
  omega

/-- Settles O36: both sums stay below 2^PW by `ip_add_lt`, the operand byte being at most 255. -/
theorem pointerNeverWraps : Obligations.PointerNeverWraps := by
  intro w s c k hs hc hip
  have hroom := ip_add_lt hs hc hip
  have hk := k.isLt
  have hkp : (toPointer (zextByte k) : Pointer w).toNat = k.toNat := by
    rw [toPointer_toNat, zextByte_toNat hs.vlen_wf]
  have hlt : 1 < 2 ^ Config.PW w := by omega
  have hone : (1 : Pointer w).toNat = 1 := Nat.mod_eq_of_lt hlt
  constructor
  · rw [BitVec.toNat_add_of_lt (by rw [hone]; omega), hone]
  · have hsum : (s.ip + toPointer (zextByte k)).toNat = s.ip.toNat + k.toNat := by
      rw [BitVec.toNat_add_of_lt (by rw [hkp]; omega), hkp]
    rw [BitVec.toNat_add_of_lt (by rw [hsum, hone]; omega), hsum, hone]

end Sys2Proof.Machine
end

section
/-! O34 (R10, R97, R98). What lies below the entries an instruction uses: completing is the converse of
`exec_cases`, and `Completed` speaks of the entries used alone. -/

namespace Sys2Proof.Machine

variable {w : Nat} {s t : StateAt w} {i : Instr}

/-! ### An instruction that can complete does -/

theorem finish_binaryTotal {f : Value w → Value w → Value w} (h : CompletedTwo f s t) (hf : s.vsFits) :
    finish s (binaryTotal f s) = .next ⟨w, t⟩ := by
  obtain ⟨a, b, rest, hvs, rfl⟩ := h
  rw [binaryTotal, binary_next hvs rfl hf, finish_ok]

theorem finish_binaryDivide {f : Value w → Value w → Value w}
    (h : CompletedTwo f s t ∧ ∀ b, s.vs.head? = some b → Alu.divisorIsZero b = false) (hf : s.vsFits) :
    finish s (binaryDivide f s) = .next ⟨w, t⟩ := by
  obtain ⟨⟨a, b, rest, hvs, rfl⟩, hb⟩ := h
  have hb := hb b (by simp [hvs])
  rw [binaryDivide, binary_next hvs (v := f a b) (by simp [hb]) hf, finish_ok]

/-- A stack within its capacity has room again for one Value popped (R97). -/
theorem not_full_of_popped {v : Value w} {rest : List (Value w)} (hf : s.vsFits) (hvs : s.vs = v :: rest) :
    Config.full s.params.vsDepth rest.length = false :=
  full_of_fits_succ (by simpa [StateAt.vsFits, StateAt.vsp, hvs] using hf)

/-- The converse of `exec_cases`: an instruction that finds what it needs completes. -/
theorem exec_of_completed (h : Completed i s t) (hf : s.vsFits) : exec i ⟨w, s⟩ = .next ⟨w, t⟩ := by
  cases i with
  | noop _ | exit _ => cases h; rfl
  | proc _ | jmp _ => obtain ⟨k, rfl, rfl⟩ := h; rfl
  | add _ | sub _ | mul _ | and _ | or _ | xor _ | lsf _ | rsf _ | eq _ | gt _ | lt _ | gte _ | lte _ =>
    exact finish_binaryTotal h hf
  | div _ | mod _ => exact finish_binaryDivide h hf
  | push _ =>
    obtain ⟨k, rfl, hroom, rfl⟩ := h
    simp [exec, execPush, bind, Except.bind, push_ok _ hroom, fallThrough]
  | load _ =>
    obtain ⟨k, v, rfl, hread, hroom, rfl⟩ := h
    simp [exec, execLoad, bind, Except.bind, heapRead_some hread, push_ok _ hroom, fallThrough]
  | store _ =>
    obtain ⟨k, v, rest, rfl, hvs, rfl⟩ := h
    simp [exec, execStore, bind, Except.bind, pop_cons hvs, fallThrough, heapWrite, heapAddress]
  | not _ =>
    obtain ⟨a, rest, hvs, rfl⟩ := h
    have hroom := not_full_of_popped hf hvs
    simp [exec, execNot, bind, Except.bind, pop_cons hvs, push, StateAt.vsp, hroom, fallThrough]
  | call _ =>
    obtain ⟨k, rfl, hroom, rfl⟩ := h
    simp [exec, execCall, bind, Except.bind, csPush_ok _ hroom, redirect]
  | ret _ =>
    obtain ⟨p, rest, hcs, rfl⟩ := h
    simp [exec, execRet, bind, Except.bind, csPop_cons hcs, redirect]
  | jif _ =>
    obtain ⟨c, p, rest, hvs, rfl⟩ := h
    cases hc : conditionIsZero c <;>
      simp [exec, execJif, bind, Except.bind, pop, hvs, hc, redirect, fallThrough]
  | dbg _ =>
    obtain ⟨v, rest, hvs, rfl⟩ := h
    simp [exec, execDbg, bind, Except.bind, pop_cons hvs, fallThrough, debugEmit]

/-! ### Entries below -/

/-- The state with more entries below its value stack. -/
def StateAt.above (below : List (Value w)) (s : StateAt w) : StateAt w := { s with vs := s.vs ++ below }

variable (below : List (Value w))

theorem completedTwo_above {f : Value w → Value w → Value w} (h : CompletedTwo f s t) :
    CompletedTwo f (s.above below) (t.above below) := by
  obtain ⟨a, b, rest, hvs, rfl⟩ := h
  exact ⟨a, b, rest ++ below, by simp [StateAt.above, hvs], rfl⟩

/-- A divisor at the top of the stack is the same above more entries. -/
theorem completedDivide_above {f : Value w → Value w → Value w}
    (h : CompletedTwo f s t ∧ ∀ b, s.vs.head? = some b → Alu.divisorIsZero b = false) :
    CompletedTwo f (s.above below) (t.above below) ∧
      ∀ b, (s.above below).vs.head? = some b → Alu.divisorIsZero b = false := by
  obtain ⟨htwo, hb⟩ := h
  refine ⟨completedTwo_above below htwo, ?_⟩
  obtain ⟨a, b, rest, hvs, rfl⟩ := htwo
  simpa [StateAt.above, hvs] using hb

/-- An instruction that pushes found room above the entries below, if what it leaves has room. -/
theorem not_full_above {v : Value w}
    (hroom : Config.fits s.params.vsDepth ((v :: s.vs) ++ below).length = true) :
    Config.full (s.above below).params.vsDepth (s.above below).vsp = false :=
  full_of_fits_succ (by simpa [StateAt.above, StateAt.vsp] using hroom)

/-- An instruction completes in the same way above more entries. -/
theorem completed_above (h : Completed i s t)
    (hroom : Config.fits s.params.vsDepth (t.vs ++ below).length = true) :
    Completed i (s.above below) (t.above below) := by
  cases i with
  | noop _ | exit _ => cases h; rfl
  | proc _ | jmp _ => obtain ⟨k, hk, rfl⟩ := h; exact ⟨k, hk, rfl⟩
  | add _ | sub _ | mul _ | and _ | or _ | xor _ | lsf _ | rsf _ | eq _ | gt _ | lt _ | gte _ | lte _ =>
    exact completedTwo_above below h
  | div _ | mod _ => exact completedDivide_above below h
  | push _ => obtain ⟨k, hk, _, rfl⟩ := h; exact ⟨k, hk, not_full_above below hroom, rfl⟩
  | load _ =>
    obtain ⟨k, v, hk, hread, _, rfl⟩ := h
    exact ⟨k, v, hk, hread, not_full_above below hroom, rfl⟩
  | store _ =>
    obtain ⟨k, v, rest, hk, hvs, rfl⟩ := h
    exact ⟨k, v, rest ++ below, hk, by simp [StateAt.above, hvs], rfl⟩
  | not _ =>
    obtain ⟨a, rest, hvs, rfl⟩ := h
    exact ⟨a, rest ++ below, by simp [StateAt.above, hvs], rfl⟩
  | call _ => obtain ⟨k, hk, hcs, rfl⟩ := h; exact ⟨k, hk, hcs, rfl⟩
  | ret _ => obtain ⟨p, rest, hcs, rfl⟩ := h; exact ⟨p, rest, hcs, rfl⟩
  | jif _ =>
    obtain ⟨c, p, rest, hvs, rfl⟩ := h
    exact ⟨c, p, rest ++ below, by simp [StateAt.above, hvs], rfl⟩
  | dbg _ =>
    obtain ⟨v, rest, hvs, rfl⟩ := h
    exact ⟨v, rest ++ below, by simp [StateAt.above, hvs], rfl⟩

/-- Settles O34: the instruction completed, so it completes above the entries added (`completed_above`), and
what can complete does (`exec_of_completed`). -/
theorem stackReachedAtTop : Obligations.StackReachedAtTop := by
  intro i w s t below _ hx ht hfits hroom
  rcases exec_cases hx with ⟨e, rfl⟩ | hc
  · exact absurd rfl ht
  · exact exec_of_completed (completed_above below hc hroom) hfits

end Sys2Proof.Machine
end

section
/-! O31 (R20, R40, R53, R177). The program and its surroundings, which no instruction writes. -/

namespace Sys2Proof.Machine

variable {w : Nat} {s t : StateAt w} {i : Instr}

/-- `t` has the program, the instruction memory and the surroundings of `s`. -/
def SameProgram (s t : StateAt w) : Prop :=
  t.prog = s.prog ∧ t.dpos = s.dpos ∧ t.imem = s.imem ∧ t.imemValid = s.imemValid ∧
    t.params = s.params ∧ t.host = s.host

/-- The parts of the state that a completing instruction may write are no part of the program. -/
theorem sameProgram_update (s : StateAt w) (ip : Pointer w) (vs : List (Value w)) (cs : List (Pointer w))
    (heap : Memory w) (log : List (DebugEvent w)) (st : Status) :
    SameProgram s { s with ip := ip, vs := vs, cs := cs, heap := heap, dbgLog := log, status := st } :=
  ⟨rfl, rfl, rfl, rfl, rfl, rfl⟩

theorem runFault_sameProgram (e : RunError) (s : StateAt w) : SameProgram s (runFault e s) :=
  ⟨rfl, rfl, rfl, rfl, rfl, rfl⟩

theorem completed_sameProgram (h : Completed i s t) : SameProgram s t := by
  cases i with
  | noop _ | exit _ => cases h; exact sameProgram_update s ..
  | proc _ | jmp _ => obtain ⟨k, _, rfl⟩ := h; exact sameProgram_update s ..
  | push _ | call _ => obtain ⟨k, _, _, rfl⟩ := h; exact sameProgram_update s ..
  | load _ => obtain ⟨k, v, _, _, _, rfl⟩ := h; exact sameProgram_update s ..
  | store _ => obtain ⟨k, v, rest, _, _, rfl⟩ := h; exact sameProgram_update s ..
  | add _ | sub _ | mul _ | and _ | or _ | xor _ | lsf _ | rsf _ | eq _ | gt _ | lt _ | gte _ | lte _
  | jif _ => obtain ⟨a, b, rest, _, rfl⟩ := h; exact sameProgram_update s ..
  | div _ | mod _ => obtain ⟨⟨a, b, rest, _, rfl⟩, _⟩ := h; exact sameProgram_update s ..
  | not _ | ret _ | dbg _ => obtain ⟨a, rest, _, rfl⟩ := h; exact sameProgram_update s ..

/-- Settles O31: whether the instruction raises or completes, it writes elsewhere. -/
theorem programIsReadOnly : Obligations.ProgramIsReadOnly := by
  intro i w s t hx
  obtain ⟨u, hu⟩ := exec_next i s
  have htu : t = ⟨w, u⟩ := Host.Outcome.next.inj (hx.symm.trans hu)
  refine ⟨u, htu, ?_⟩
  rcases exec_cases hu with ⟨e, rfl⟩ | hc
  · exact runFault_sameProgram e s
  · exact completed_sameProgram hc

end Sys2Proof.Machine
end

section
/-! O33 (R42). What an instruction's lines answer over another heap: the primitives, the two-operand
convention, then the instructions but STORE and LOAD. -/

namespace Sys2Proof.Machine

variable {w : Nat} {s t : StateAt w}

/-- The state with another heap. -/
def StateAt.withHeap (h : Memory w) (s : StateAt w) : StateAt w := { s with heap := h }

variable (h : Memory w)

/-! ### The primitives (R97 to R100) -/

theorem push_withHeap (v : Value w) (s : StateAt w) :
    push v (s.withHeap h) = StateAt.withHeap h <$> push v s := by
  cases hf : Config.full s.params.vsDepth s.vsp with
  | true => rw [push_full v hf, push_full (s := s.withHeap h) v hf]; rfl
  | false => rw [push_ok v hf, push_ok (s := s.withHeap h) v hf]; rfl

theorem pop_withHeap (s : StateAt w) :
    pop (s.withHeap h) = (fun a => (a.1, a.2.withHeap h)) <$> pop s := by
  cases hs : s.vs with
  | nil => rw [pop_nil hs, pop_nil (s := s.withHeap h) hs]; rfl
  | cons v rest => rw [pop_cons hs, pop_cons (s := s.withHeap h) hs]; rfl

theorem csPush_withHeap (p : Pointer w) (s : StateAt w) :
    csPush p (s.withHeap h) = StateAt.withHeap h <$> csPush p s := by
  cases hf : Config.full s.params.csDepth s.csp with
  | true => rw [csPush_full p hf, csPush_full (s := s.withHeap h) p hf]; rfl
  | false => rw [csPush_ok p hf, csPush_ok (s := s.withHeap h) p hf]; rfl

theorem csPop_withHeap (s : StateAt w) :
    csPop (s.withHeap h) = (fun a => (a.1, a.2.withHeap h)) <$> csPop s := by
  cases hs : s.cs with
  | nil => rw [csPop_nil hs, csPop_nil (s := s.withHeap h) hs]; rfl
  | cons p rest => rw [csPop_cons hs, csPop_cons (s := s.withHeap h) hs]; rfl

/-! ### The instructions -/

/-- The lines of an instruction one after another: if the first answer the same up to `g`, and the rest take
that to the same up to `g'`, then all of them answer the same up to `g'`. -/
theorem bind_eq_map {α β : Type} {g : α → α} {g' : β → β} {r r' : Except RunError α}
    {f f' : α → Except RunError β} (hr : r' = g <$> r) (hf : ∀ a, f' (g a) = g' <$> f a) :
    r' >>= f' = g' <$> (r >>= f) := by
  subst hr
  cases r with
  | ok a => exact hf a
  | error e => rfl

theorem binary_withHeap (op : Value w → Value w → Except RunError (Value w)) (s : StateAt w) :
    binary op (s.withHeap h) = StateAt.withHeap h <$> binary op s :=
  bind_eq_map (pop_withHeap h s) fun (b, s) => bind_eq_map (pop_withHeap h s) fun (a, s) =>
    bind_eq_map (id_map (op a b)).symm fun v => bind_eq_map (push_withHeap h v s) fun _ => rfl

/-- The lines of an instruction that is neither STORE nor LOAD answer the same over another heap. -/
theorem exec_withHeap (i : Instr) (s : StateAt w) (hstore : ∀ o, i ≠ .store o)
    (hload : ∀ o, i ≠ .load o) :
    ∃ r, exec i ⟨w, s⟩ = finish s r ∧
      exec i ⟨w, s.withHeap h⟩ = finish (s.withHeap h) (StateAt.withHeap h <$> r) := by
  cases i with
  | store o => exact absurd rfl (hstore o)
  | load o => exact absurd rfl (hload o)
  | noop _ | exit _ => exact ⟨.ok _, rfl, rfl⟩
  | add _ | sub _ | mul _ | div _ | mod _ | and _ | or _ | xor _ | lsf _ | rsf _ | eq _ | gt _ | lt _
  | gte _ | lte _ => exact ⟨_, rfl, congrArg (finish _) (binary_withHeap h _ s)⟩
  | not _ =>
    exact ⟨_, rfl, congrArg (finish _) (bind_eq_map (pop_withHeap h s) fun (a, s) =>
      bind_eq_map (push_withHeap h _ s) fun _ => rfl)⟩
  | push o =>
    exact ⟨_, rfl, congrArg (finish _) (bind_eq_map (id_map (operand o)).symm fun k =>
      bind_eq_map (push_withHeap h _ s) fun _ => rfl)⟩
  | proc o | jmp o =>
    exact ⟨_, rfl, congrArg (finish _) (bind_eq_map (id_map (operand o)).symm fun _ => rfl)⟩
  | call o =>
    exact ⟨_, rfl, congrArg (finish _) (bind_eq_map (id_map (operand o)).symm fun k =>
      bind_eq_map (csPush_withHeap h _ s) fun _ => rfl)⟩
  | ret _ => exact ⟨_, rfl, congrArg (finish _) (bind_eq_map (csPop_withHeap h s) fun _ => rfl)⟩
  | jif _ =>
    refine ⟨_, rfl, congrArg (finish _) (bind_eq_map (pop_withHeap h s) fun (c, s) =>
      bind_eq_map (pop_withHeap h s) fun _ => ?_)⟩
    cases conditionIsZero c <;> rfl
  | dbg _ => exact ⟨_, rfl, congrArg (finish _) (bind_eq_map (pop_withHeap h s) fun _ => rfl)⟩

theorem finish_withHeap {r : Effect w} (hr : finish s r = .next ⟨w, t⟩) :
    finish (s.withHeap h) (StateAt.withHeap h <$> r) = .next ⟨w, t.withHeap h⟩ := by
  rcases finish_inv hr with rfl | ⟨e, rfl, rfl⟩ <;> rfl

/-- Settles O33: the lines answer the same over another heap (`exec_withHeap`), and so the instruction ends
in the same state, or in the same error. -/
theorem heapIdle : Obligations.HeapIdle := by
  intro i w s t h hstore hload hx
  obtain ⟨r, hr, hr'⟩ := exec_withHeap h i s hstore hload
  exact hr'.trans (finish_withHeap h (hr ▸ hx))

end Sys2Proof.Machine
end

section
/-! O42 (R46, R47, R50). A LOAD after two STOREs. -/

namespace Sys2Proof.Machine

variable {w : Nat} {s : StateAt w}

/-- An earlier write is still read after a write of another cell. -/
theorem Memory.read_write_write (m : Memory w) {j k : Byte} (hjk : j ≠ k) (u v : Value w) :
    Memory.read (Memory.write (Memory.write m k.toNat v) j.toNat u) k.toNat = some v := by
  have hne : k.toNat ≠ j.toNat := fun h => hjk (BitVec.eq_of_toNat_eq h).symm
  rw [Memory.read_write_other _ _ _ _ hne, Memory.read_write_same]

/-- Settles O42: each of the three finds what it needs and completes (`exec_of_completed`); the LOAD finds
the first STORE's Value, and the room of the two Values popped. -/
theorem loadAfterStores : Obligations.LoadAfterStores := by
  intro w s k j v u rest hvs hf hjk
  have hfits : Config.fits s.params.vsDepth (rest.length + 1 + 1) = true := by
    simpa [StateAt.vsFits, StateAt.vsp, hvs] using hf
  have hfits₁ := fits_mono hfits (Nat.le_succ _)
  exact ⟨_, _, _,
    exec_of_completed (i := .store (some k)) ⟨k, v, u :: rest, rfl, hvs, rfl⟩ hf,
    exec_of_completed (i := .store (some j)) ⟨j, u, rest, rfl, rfl, rfl⟩ hfits₁,
    exec_of_completed (i := .load (some k))
      ⟨k, v, rfl, Memory.read_write_write s.heap hjk u v, full_of_fits_succ hfits₁, rfl⟩
      (fits_mono hfits₁ (Nat.le_succ _)), rfl⟩

end Sys2Proof.Machine
end

section
/-! O1, O5, O6 (R60 to R68, R72, R77). The opcode map, and one instruction read from the bytes it lies in. -/

namespace Sys2Proof

variable {b : Byte} {make : Operand → Instr} {bytes : List Byte}

/-- The opcodes are the bytes of the map's rows (R66). -/
theorem isOpcode_iff (b : Byte) : isOpcode b = true ↔ b ∈ opcodeTable.map (·.byte) := by
  simp [isOpcode, lookup]

theorem exists_lookup_of_isOpcode (h : isOpcode b = true) : ∃ make, lookup b = some make :=
  Option.isSome_iff_exists.1 h

/-- The opcode byte decides whether an operand byte follows, and the bytes after them are left (R62, R70):
the converse of `decode_inv`. -/
theorem decode_of_lookup {o : Operand} (hl : lookup b = some make) (ho : o.isSome = bearing b)
    (rest : List Byte) : decode (b :: o.toList ++ rest) = .ok (make o, rest) := by
  cases o with
  | none => simp [decode, hl, ← ho]
  | some k => simp [decode, hl, ← ho]

/-- An opcode byte with the operand field it asks for is read as an entry with that byte and that field. -/
theorem exists_decode_of_isOpcode {o : Operand} (hop : isOpcode b = true) (ho : o.isSome = bearing b)
    (rest : List Byte) :
    ∃ i, i.opcodeByte = b ∧ i.operand = o ∧ decode (b :: o.toList ++ rest) = .ok (i, rest) := by
  obtain ⟨make, hl⟩ := exists_lookup_of_isOpcode hop
  obtain ⟨hbyte, hoperand, _⟩ := lookup_some hl o
  exact ⟨make o, hbyte, hoperand, decode_of_lookup hl ho rest⟩

/-- Decoding at an operand-bearing last byte (R73). -/
theorem decode_truncated (hop : isOpcode b = true) (hb : bearing b = true) :
    decode [b] = .error (.truncatedOperand b) := by
  obtain ⟨make, hl⟩ := exists_lookup_of_isOpcode hop
  simp [decode, hl, hb]

/-- Only where no byte is left does decoding answer the end of the program (R71). -/
theorem decode_endOfProgram_iff : decode bytes = .error .endOfProgram ↔ bytes = [] := by
  refine ⟨fun h => ?_, fun h => by rw [h]; rfl⟩
  cases bytes with
  | nil => rfl
  | cons b rest =>
    cases hl : lookup b with
    | none => simp [decode, hl] at h
    | some make =>
      cases hb : bearing b with
      | false => simp [decode, hl, hb] at h
      | true => cases rest <;> simp [decode, hl, hb] at h

/-- Settles O1: the map answers the constructor for the opcode byte, and a well-formed operand field is the
one the byte asks for. -/
theorem decodeOfEncode : Obligations.DecodeOfEncode := by
  intro i rest hwf
  obtain ⟨make, hl, hmake⟩ := lookup_opcodeByte i
  rw [encode, decode_of_lookup hl (bearing_opcodeByte hwf).symm, hmake]

/-- Of the 256 bytes the opcodes are those of the map's rows, each once. -/
theorem filter_isOpcode_perm :
    ((List.finRange 256).filter fun n => isOpcode (BitVec.ofFin n)).Perm
      (opcodeTable.map (·.byte.toFin)) := by
  refine (List.perm_ext_iff_of_nodup ((List.nodup_finRange 256).filter _) (by decide)).2 fun n => ?_
  simp [isOpcode_iff, ← BitVec.toFin_inj]

/-- Settles O5: the opcodes are the bytes of the map's 27 rows, and so 256 - 27 bytes are none. -/
theorem invalidBytes : Obligations.InvalidBytes := by
  refine ⟨isOpcode_iff, ?_, fun _ rest h => decode_invalid rest h⟩
  have hcount : ((List.finRange 256).filter fun n => isOpcode (BitVec.ofFin n)).length = 27 :=
    filter_isOpcode_perm.length_eq
  have hsplit := List.length_eq_length_filter_add (α := Fin (2 ^ 8)) (l := List.finRange 256)
    fun n => isOpcode (BitVec.ofFin n)
  rw [List.length_finRange, hcount] at hsplit
  omega

/-- Settles O6: each word is decoded. -/
theorem decodeWords : Obligations.DecodeWords :=
  ⟨rfl, rfl, rfl, rfl, rfl, rfl, rfl, rfl, rfl, rfl⟩

end Sys2Proof
end

section
/-! O7, O8 and O10 (R70, R72 to R75, R92). One step of the decoder, by what it reads at `DPOS`. -/

namespace Sys2Proof.Machine

variable {w : Nat} {s : StateAt w} {b : Byte} {o : Operand} {i : Instr} {rest : List Byte}

theorem step_decoding (hq : s.quietNow) (hd : s.status = .decoding) :
    step ⟨w, s⟩ = .next ⟨w, decodeStep s.tick⟩ := by
  rw [step_quiet hq, machineStep_decoding (s := s.tick) hd]

theorem step_running (hq : s.quietNow) (hr : s.status = .running) (hi : s.imem[s.ip.toNat]? = some i) :
    step ⟨w, s⟩ = exec i ⟨w, s.tick⟩ := by
  rw [step_quiet hq, machineStep_running (s := s.tick) hr, execStep_fetched (s := s.tick) hi]

/-- The model's `DecodeFault` is R75's, with the payload's number. -/
theorem decodeFault_eq (kind : ErrKind) (info : Byte) (s : StateAt w) :
    decodeFault kind info s = s.decodeFaulted kind (BitVec.ofNat w info.toNat) := by
  simp only [decodeFault, StateAt.decodeFaulted, zextByte_eq]

/-! ### What `DecodeStep` does -/

theorem decodeStep_end (h : s.plen ≤ s.dpos) :
    decodeStep s = { s with imemValid := true, status := .ready } := by
  simp only [decodeStep, List.drop_eq_nil_of_le h, decode]

theorem decodeStep_invalid (h : decode (s.prog.drop s.dpos) = .error (.invalidOpcode b)) :
    decodeStep s = s.decodeFaulted .invalidOpcode (BitVec.ofNat w b.toNat) := by
  simp only [decodeStep, h, decodeFault_eq]

theorem decodeStep_truncated (h : decode (s.prog.drop s.dpos) = .error (.truncatedOperand b)) :
    decodeStep s = s.decodeFaulted .truncatedOperand (BitVec.ofNat w b.toNat) := by
  simp only [decodeStep, h, decodeFault_eq]

theorem decodeStep_full (h : decode (s.prog.drop s.dpos) = .ok (i, rest))
    (hfull : s.params.imemDepth = some s.ilen) :
    decodeStep s = s.decodeFaulted .programTooLong 0 := by
  simp only [decodeStep, h, full_iff.2 hfull, if_true, decodeFault_eq]
  rfl

theorem decodeStep_room (h : decode (s.prog.drop s.dpos) = .ok (i, rest))
    (hroom : s.params.imemDepth ≠ some s.ilen) :
    decodeStep s = { s with imem := s.imem ++ [i], dpos := s.dpos + (encode i).length } := by
  simp only [decodeStep, h, not_full_iff.2 hroom, Bool.false_eq_true, if_false]

/-- An opcode byte at `DPOS` with the operand field it asks for becomes the next entry, where there is room. -/
theorem decodeStep_appends (hop : isOpcode b = true) (ho : o.isSome = bearing b)
    (hbytes : s.prog.drop s.dpos = b :: o.toList ++ rest) (hroom : s.params.imemDepth ≠ some s.ilen) :
    ∃ i, i.opcodeByte = b ∧ i.operand = o ∧
      decodeStep s = { s with imem := s.imem ++ [i], dpos := s.dpos + (1 + o.toList.length) } := by
  obtain ⟨i, hbyte, hoperand, hi⟩ := exists_decode_of_isOpcode hop ho rest
  refine ⟨i, hbyte, hoperand, ?_⟩
  rw [decodeStep_room (hbytes ▸ hi) hroom, encode_length, hoperand]

/-! ### The bytes at `DPOS` -/

theorem drop_dpos_eq_cons (hb : s.prog[s.dpos]? = some b) :
    s.prog.drop s.dpos = b :: s.prog.drop (s.dpos + 1) := by
  rw [List.drop_eq_getElem?_toList_append, hb]
  rfl

theorem drop_dpos_eq_cons_cons {k : Byte} (hb : s.prog[s.dpos]? = some b)
    (hk : s.prog[s.dpos + 1]? = some k) :
    s.prog.drop s.dpos = b :: k :: s.prog.drop (s.dpos + 2) := by
  rw [drop_dpos_eq_cons hb, List.drop_eq_getElem?_toList_append, hk]
  rfl

/-- A byte that is not a truncated instruction's has the operand field it asks for. -/
theorem exists_operand_at_dpos (hb : s.prog[s.dpos]? = some b)
    (hnot : ¬ (bearing b = true ∧ s.dpos + 1 = s.plen)) :
    ∃ (o : Operand) (rest : List Byte), o.isSome = bearing b ∧
      s.prog.drop s.dpos = b :: o.toList ++ rest := by
  cases hbear : bearing b with
  | false => exact ⟨none, _, rfl, drop_dpos_eq_cons hb⟩
  | true =>
    have hpos : s.dpos < s.plen := (List.getElem?_eq_some_iff.1 hb).1
    have hnext : s.dpos + 1 < s.plen := lt_of_le_of_ne hpos fun h => hnot ⟨hbear, h⟩
    exact ⟨some _, _, rfl, drop_dpos_eq_cons_cons hb (List.getElem?_eq_getElem hnext)⟩

/-! ### The step -/

/-- Settles O7: what stands at `DPOS` selects the case of `DecodeStep`. -/
theorem decoderStep : Obligations.DecoderStep := by
  intro w s hq hd _
  rw [step_decoding hq hd]
  refine ⟨fun hend => by rw [decodeStep_end (s := s.tick) hend.ge], fun b hb => ?_⟩
  have hdrop := drop_dpos_eq_cons hb
  refine ⟨fun hop => ?invalid, fun hop hbear hlast => ?truncated, fun hop hnot hfull => ?full,
    fun hop hroom hbear k hk => ?bearing, fun hop hroom hbear => ?notBearing⟩
  case invalid =>
    rw [decodeStep_invalid (s := s.tick) (hdrop ▸ decode_invalid _ hop)]
  case truncated =>
    rw [List.drop_eq_nil_of_le hlast.ge] at hdrop
    rw [decodeStep_truncated (s := s.tick) (hdrop ▸ decode_truncated hop hbear)]
  case full =>
    obtain ⟨o, rest, ho, hbytes⟩ := exists_operand_at_dpos hb hnot
    obtain ⟨i, _, _, hi⟩ := exists_decode_of_isOpcode hop ho rest
    rw [decodeStep_full (s := s.tick) (hbytes ▸ hi) hfull]
  case bearing =>
    obtain ⟨i, hbyte, hoperand, h⟩ := decodeStep_appends (s := s.tick) (o := some k) hop hbear.symm
      (drop_dpos_eq_cons_cons hb hk) hroom
    exact ⟨i, hbyte, hoperand, by rw [h]; rfl⟩
  case notBearing =>
    obtain ⟨i, hbyte, hoperand, h⟩ := decodeStep_appends (s := s.tick) (o := none) hop hbear.symm
      hdrop hroom
    exact ⟨i, hbyte, hoperand, by rw [h]; rfl⟩

/-- Settles O8: a decoder step that ends in `Fault` is a `DecodeFault`, and with `IMEM_VALID = 0` the
machine ignores `RUN`. -/
theorem decoderFailure : Obligations.DecoderFailure := by
  intro w s t hq hd hx hfault
  rw [step_decoding hq hd] at hx
  cases hx
  rcases decodeStep_cases s.tick with ⟨_, h⟩ | ⟨kind, info, hkind, h⟩ | ⟨i, rest, _, _, h⟩ <;>
    rw [h] at hfault ⊢
  · cases hfault
  · exact ⟨⟨kind, _, decodeFault_eq kind info s.tick, hkind⟩, rfl, rfl,
      hostReadReg_dpos (dposMeant_of (.inr (.inr ⟨rfl, rfl⟩))), rfl, rfl, fun _ => step_ignored rfl rfl⟩
  · exact absurd (hd.symm.trans hfault) (by decide)

/-- Settles O10: the decoder appends the entry at index `ILEN`, where the running machine fetches it. -/
theorem stepRunsDecoded : Obligations.StepRunsDecoded := by
  intro w s i rest hq hd hi hroom
  refine ⟨_, step_decoding hq hd, ?_⟩
  rw [decodeStep_room (s := s.tick) hi hroom]
  refine ⟨hd, fun v u himem hip hr huq => step_running huq hr ?_⟩
  rw [himem, hip]
  exact List.getElem?_concat_length

end Sys2Proof.Machine
end

section
/-! O11 (R66, R92) and O23 (R69, R215). An instruction placed by the model, and a decode begun by the host. -/

namespace Sys2Proof.Machine

/-- Settles O11: the placed instruction stands at `ip`, and the machine runs with a quiet outside world. -/
theorem placedWordRuns : Obligations.PlacedWordRuns := by
  intro w s nbits word i hi
  have hplaced : State.withFetchWord ⟨w, s⟩ nbits word = ⟨w, { s with
      imem := placeAt s.ip.toNat i s.imem, imemValid := true, status := .running, host := [] }⟩ := by
    simp only [State.withFetchWord, hi]
  refine ⟨_, hplaced, ?_⟩
  rw [hplaced, step_alone rfl, machineStep_running rfl, execStep_fetched (placeAt_get _ i s.imem)]

/-- Settles O23: a machine that is not busy accepts DECODE. -/
theorem decodeCommand : Obligations.DecodeCommand := by
  intro w s rest hbusy hhost
  rw [step_accepted hhost (by simp [accepted, hbusy])]
  rfl

end Sys2Proof.Machine
end

section
/-! O3 and O4 (R70, R71, R76, R78). A decode from its first step to its last, with nothing arriving from
outside. -/

namespace Sys2Proof.Machine

variable {w : Nat} {s t : StateAt w} {i : Instr} {rest : List Byte}

theorem run_decoding (n : Nat) (hd : s.status = .decoding) (hh : s.host = []) :
    Host.Core.run Sys2Proof.core (n + 1) (State.mk w s) =
      Host.Core.run Sys2Proof.core n (State.mk w (decodeStep s)) :=
  run_succ n (by rw [step_alone hh, machineStep_decoding hd])

/-- An instruction read at `DPOS` has its bytes there. -/
theorem dpos_add_length_le (hi : decode (s.prog.drop s.dpos) = .ok (i, rest)) :
    s.dpos + (encode i).length ≤ s.plen := by
  obtain ⟨_, hbytes⟩ := encodeOfDecode _ _ _ hi
  have hlen := congrArg List.length hbytes
  have hpos : 0 < (encode i).length := by rw [encode_length]; omega
  rw [List.length_append, List.length_drop] at hlen
  unfold StateAt.plen
  omega

/-- From any position, a decode ends after at most one step for each byte left and one more. -/
theorem run_decoding_ends (left : Nat) (hd : s.status = .decoding) (hh : s.host = [])
    (hleft : s.plen - s.dpos ≤ left) :
    ∃ (n : Nat) (t : StateAt w), n ≤ left + 1 ∧
      Host.Core.run Sys2Proof.core n (State.mk w s) = .next (State.mk w t) ∧
      (t.status = .ready ∨ t.status = .fault) := by
  induction left generalizing s with
  | zero =>
    refine ⟨1, decodeStep s, le_rfl, run_decoding 0 hd hh, .inl ?_⟩
    rw [decodeStep_end (by omega)]
  | succ left ih =>
    rcases decodeStep_cases s with ⟨_, h⟩ | ⟨kind, info, _, h⟩ | ⟨i, rest, hi, _, h⟩
    · exact ⟨1, decodeStep s, by omega, run_decoding 0 hd hh, .inl (by rw [h])⟩
    · exact ⟨1, decodeStep s, by omega, run_decoding 0 hd hh, .inr (by rw [h, decodeFault_status])⟩
    · have hlen := encode_length i
      obtain ⟨n, t, hn, hrun, ht⟩ := ih (s := decodeStep s) (by rw [h]; exact hd) (by rw [h]; exact hh)
        (by rw [h]; simp only [StateAt.plen] at hleft ⊢; omega)
      exact ⟨n + 1, t, by omega, by rw [run_decoding n hd hh, hrun], ht⟩

/-- Settles O4: at position 0 every byte of the program is left. -/
theorem decodingEnds : Obligations.DecodingEnds :=
  fun _ s hd _ hh => run_decoding_ends s.plen hd hh (Nat.sub_le _ _)

/-! ### What a decode that ends in `Ready` leaves -/

/-- If what is decoded so far encodes to the bytes scanned so far (R76), a decode that reaches `Ready`
leaves the encoding of the whole program. -/
theorem encodeSeq_of_run_ready (n : Nat) (hd : s.status = .decoding) (hh : s.host = [])
    (hpos : s.dpos ≤ s.plen) (himem : encodeSeq s.imem = s.prog.take s.dpos)
    (hrun : Host.Core.run Sys2Proof.core n (State.mk w s) = .next (State.mk w t))
    (ht : t.status = .ready) : encodeSeq t.imem = s.prog := by
  induction n generalizing s with
  | zero =>
    cases hrun
    exact absurd (hd.symm.trans ht) (by decide)
  | succ n ih =>
    rw [run_decoding n hd hh] at hrun
    rcases decodeStep_cases s with ⟨hend, h⟩ | ⟨kind, info, _, h⟩ | ⟨i, rest, hi, _, h⟩ <;> rw [h] at hrun
    · cases (run_waiting n (s := { s with imemValid := true, status := .ready }) rfl hh).symm.trans hrun
      rw [himem, List.take_of_length_le (List.drop_eq_nil_iff.1 (decode_endOfProgram_iff.1 hend))]
    · cases (run_waiting n (s := decodeFault kind info s) rfl hh).symm.trans hrun
      cases ht
    · obtain ⟨hpos', himem'⟩ := scanned_append hpos himem (encodeOfDecode _ _ _ hi).2
      exact ih (s := { s with imem := s.imem ++ [i], dpos := s.dpos + (encode i).length })
        hd hh hpos' himem' hrun

/-! ### A decode of an encoding -/

/-- From any position where the encoding of `l` follows and `l` has room, a decode appends `l`, in one step
an entry, and ends. -/
theorem run_decoding_encodeSeq (l : List Instr) (hd : s.status = .decoding) (hh : s.host = [])
    (hwf : ∀ i ∈ l, i.wellFormed = true)
    (hfits : Config.fits s.params.imemDepth (s.ilen + l.length) = true)
    (hprog : s.prog.drop s.dpos = encodeSeq l) :
    ∃ d, Host.Core.run Sys2Proof.core (l.length + 1) (State.mk w s) =
      .next (State.mk w { s with imem := s.imem ++ l, dpos := d, imemValid := true, status := .ready }) := by
  induction l generalizing s with
  | nil =>
    refine ⟨s.dpos, (run_decoding 0 hd hh).trans ?_⟩
    rw [decodeStep_end (List.drop_eq_nil_iff.1 hprog), List.append_nil]
    rfl
  | cons i l ih =>
    obtain ⟨hwf_i, hwf_l⟩ := List.forall_mem_cons.1 hwf
    rw [encodeSeq_cons] at hprog
    have hi : decode (s.prog.drop s.dpos) = .ok (i, encodeSeq l) := by
      rw [hprog, decodeOfEncode i _ hwf_i]
    have hroom : Config.full s.params.imemDepth s.ilen = false :=
      full_of_fits_succ (fits_mono hfits (by simp))
    obtain ⟨d, hrun⟩ := ih (s := { s with imem := s.imem ++ [i], dpos := s.dpos + (encode i).length })
      hd hh hwf_l (by simpa [StateAt.ilen, Nat.add_assoc, Nat.add_comm 1] using hfits)
      (by rw [← List.drop_drop, hprog, List.drop_left])
    refine ⟨d, (run_decoding _ hd hh).trans ?_⟩
    rw [decodeStep_room hi (not_full_iff.1 hroom)]
    exact hrun.trans (by rw [List.append_assoc]; rfl)

/-- Settles O3: a decode begins with nothing decoded and nothing scanned. -/
theorem sequenceRoundTrip : Obligations.SequenceRoundTrip := by
  refine ⟨fun w s t n hd hpos himem hh hrun ht => ?_, fun w s l hd hpos himem hh hwf hfits hprog => ?_⟩
  · exact encodeSeq_of_run_ready n hd hh (by omega) (by rw [himem, hpos]; rfl) hrun ht
  · simpa [himem] using run_decoding_encodeSeq l hd hh hwf (by simpa [StateAt.ilen, himem] using hfits)
      (by rw [hpos, List.drop_zero, hprog])

end Sys2Proof.Machine
end

section
/-! O9 and O30 (R8, R90, R92 to R95, R160 to R164). The engine's step, and where an instruction leaves `ip`. -/

namespace Sys2Proof.Machine

variable {w : Nat} {s t : StateAt w}

/-- Settles O9: with nothing from outside, a running machine's step is `execStep`, which fetches at `ip`. -/
theorem engineStep : Obligations.EngineStep := by
  refine fun w s hq hr => ⟨fun i hi => step_running hq hr hi, fun hend => ?_⟩
  rw [step_quiet hq, machineStep_running (s := s.tick) hr, execStep_pastEnd (s := s.tick) hend]

/-- JIF's target is the second Value itself (R164): a Pointer has the bits of its Value. -/
theorem ite_conditionIsZero (c target : Value w) (next : Pointer w) :
    (if conditionIsZero c then toPointer target else next) = if c = 0 then target else next := by
  simp only [conditionIsZero_iff, toPointer_eq]

/-- A two-operand instruction falls through and the machine runs on (R95, R120). -/
theorem completedTwo_fallThrough {f : Value w → Value w → Value w} (h : CompletedTwo f s t)
    (hr : s.status = .running) : t.status = .running ∧ t.ip = s.ip + 1 := by
  obtain ⟨a, b, rest, _, rfl⟩ := h
  exact ⟨hr, rfl⟩

/-- Settles O30: an instruction that did not raise completed, and `Completed` says with which `ip`. -/
theorem stepOutcomes : Obligations.StepOutcomes := by
  intro i w s t hr hx ht
  rcases exec_cases hx with ⟨e, rfl⟩ | hc
  · exact absurd rfl ht
  cases i with
  | exit _ => cases hc; exact ⟨rfl, rfl⟩
  | proc _ => obtain ⟨k, rfl, rfl⟩ := hc; exact ⟨hr, k, rfl, by rw [toPointer_zextByte]⟩
  | call _ => obtain ⟨k, rfl, _, rfl⟩ := hc; exact ⟨hr, k, rfl, toPointer_zextByte_succ k⟩
  | ret _ => obtain ⟨p, rest, hcs, rfl⟩ := hc; exact ⟨hr, by rw [hcs]; rfl⟩
  | jmp _ => obtain ⟨k, rfl, rfl⟩ := hc; exact ⟨hr, k, rfl, toPointer_zextByte k⟩
  | jif _ => obtain ⟨c, p, rest, hvs, rfl⟩ := hc; exact ⟨hr, c, p, rest, hvs, ite_conditionIsZero c p _⟩
  | noop _ => cases hc; exact ⟨hr, rfl⟩
  | push _ => obtain ⟨k, _, _, rfl⟩ := hc; exact ⟨hr, rfl⟩
  | store _ => obtain ⟨k, v, rest, _, _, rfl⟩ := hc; exact ⟨hr, rfl⟩
  | load _ => obtain ⟨k, v, _, _, _, rfl⟩ := hc; exact ⟨hr, rfl⟩
  | add _ | sub _ | mul _ | and _ | or _ | xor _ | lsf _ | rsf _ | eq _ | gt _ | lt _ | gte _ | lte _ =>
    exact completedTwo_fallThrough hc hr
  | div _ | mod _ => exact completedTwo_fallThrough hc.1 hr
  | not _ | dbg _ => obtain ⟨v, rest, _, rfl⟩ := hc; exact ⟨hr, rfl⟩

end Sys2Proof.Machine
end

section
/-! O37 (R104). A run does the same whatever stands where no instruction looks (`StateAt.elsewhere`): one
step, then the run, then what RUN leaves of the machine before it. -/

namespace Sys2Proof.Machine

variable {w : Nat} {s t : StateAt w}

/-- The two states differ at most where no instruction looks. -/
theorem sameRun_elsewhere (p : List Byte) (d : Nat) (v : Bool) (h : List HostSlot) (s : StateAt w) :
    s.sameRun (s.elsewhere p d v h) :=
  ⟨rfl, rfl, rfl, rfl, rfl, rfl, rfl, rfl, rfl, rfl, rfl, rfl⟩

/-- No instruction begins a decode. -/
theorem exec_not_decoding {i : Instr} (hx : exec i ⟨w, s⟩ = .next ⟨w, t⟩) (hd : s.status ≠ .decoding) :
    t.status ≠ .decoding := by
  rcases exec_cases hx with ⟨e, rfl⟩ | hc
  · simp
  · by_cases hexit : ∃ o, i = .exit o
    · obtain ⟨o, rfl⟩ := hexit
      cases hc
      simp
    · rwa [(completed_frame hc).status fun o ho => hexit ⟨o, ho⟩]

/-- No instruction touches the outside world's schedule. -/
theorem exec_host {i : Instr} (hx : exec i ⟨w, s⟩ = .next ⟨w, t⟩) : t.host = s.host := by
  obtain ⟨u, htu, _, _, _, _, _, hhost⟩ := programIsReadOnly i w s ⟨w, t⟩ hx
  cases htu
  exact hhost

/-- Only the decoder and the engine make the machine busy (R213). -/
theorem busy_eq_false (hd : s.status ≠ .decoding) (hr : s.status ≠ .running) : s.busy = false := by
  unfold StateAt.busy
  cases hs : s.status with
  | decoding => exact absurd hs hd
  | running => exact absurd hs hr
  | idle | ready | done | fault => rfl

variable (p : List Byte) (d : Nat) (v : Bool)

/-- Away from the decoder the machine's own step answers, stays away from it and leaves the schedule, and
does the same whatever stands elsewhere. -/
theorem machineStep_elsewhere (hd : s.status ≠ .decoding) :
    ∃ t : StateAt w, t.status ≠ .decoding ∧ t.host = s.host ∧ machineStep s = .next ⟨w, t⟩ ∧
      ∀ h, machineStep (s.elsewhere p d v h) = .next ⟨w, t.elsewhere p d v h⟩ := by
  by_cases hr : s.status = .running
  · simp only [machineStep_running hr, machineStep_running (s := s.elsewhere p d v _) hr]
    rcases execStep_cases s with ⟨hend, hx⟩ | ⟨i, _, hi, hx⟩
    · exact ⟨{ s with status := .done }, by simp, rfl, hx, fun h =>
        execStep_pastEnd (s := s.elsewhere p d v h) hend⟩
    · obtain ⟨t, ht⟩ := exec_next i s
      exact ⟨t, exec_not_decoding ht hd, exec_host ht, hx.trans ht, fun h =>
        (execStep_fetched (s := s.elsewhere p d v h) hi).trans (exec_next_elsewhere ht p d v h)⟩
  · have hbusy := busy_eq_false hd hr
    exact ⟨s, hd, rfl, machineStep_waiting hbusy, fun h =>
      machineStep_waiting (s := s.elsewhere p d v h) hbusy⟩

/-- A machine left alone away from the decoder answers after every number of steps, and the same whatever
stands elsewhere. -/
theorem run_elsewhere (n : Nat) (hd : s.status ≠ .decoding) (hh : s.host = []) :
    ∃ t : StateAt w, Host.Core.run Sys2Proof.core n (State.mk w s) = .next (State.mk w t) ∧
      Host.Core.run Sys2Proof.core n (State.mk w (s.elsewhere p d v [])) =
        .next (State.mk w (t.elsewhere p d v [])) := by
  induction n generalizing s with
  | zero => exact ⟨s, rfl, rfl⟩
  | succ n ih =>
    obtain ⟨u, hud, huh, hx, hx'⟩ := machineStep_elsewhere p d v hd
    obtain ⟨t, hrun, hrun'⟩ := ih hud (huh.trans hh)
    refine ⟨t, ?_, ?_⟩
    · rw [run_succ n ((step_alone hh).trans hx), hrun]
    · rw [run_succ n ((step_alone (s := s.elsewhere p d v []) rfl).trans (hx' [])), hrun']

/-- The step that takes RUN, on a machine that accepts it (R216). -/
theorem step_run (hbusy : s.busy = false) (hvalid : s.imemValid = true)
    (hhost : s.host = [.event (.command .run)]) :
    step ⟨w, s⟩ = .next ⟨w, commandEffect .run { s with host := [] }⟩ :=
  step_accepted hhost (by simp [accepted, hbusy, hvalid])

/-- RUN leaves of the machine before it the Instruction Sequence, the parameters and what no instruction
looks at (R216). -/
theorem commandEffect_run_elsewhere (himem : s.imem = t.imem) (hparams : s.params = t.params)
    (h : List HostSlot) :
    commandEffect .run { t with host := h } =
      StateAt.elsewhere t.prog t.dpos t.imemValid h (commandEffect .run s) := by
  simp only [commandEffect, clearErrors, StateAt.elsewhere, himem, hparams]

/-- Settles O37: after RUN the two machines differ at most where no instruction looks, and so they do at
every later step (`run_elsewhere`). -/
theorem runDeterminism : Obligations.RunDeterminism := by
  intro w s t n hsb htb hsv htv himem hparams hsh hth
  obtain ⟨s', hrun, hrun'⟩ := run_elsewhere t.prog t.dpos t.imemValid n
    (s := commandEffect .run { s with host := [] }) (by simp [commandEffect]) rfl
  refine ⟨s', _, ?_, ?_, sameRun_elsewhere t.prog t.dpos t.imemValid [] s'⟩
  · rw [run_succ n (step_run hsb hsv hsh), hrun]
  · rw [run_succ n (step_run htb htv hth),
      commandEffect_run_elsewhere (s := { s with host := [] }) himem hparams, hrun']

end Sys2Proof.Machine
end

section
/-! O38 to O41 (R102, R110 to R113, R192). NOOP, PUSH, STORE and LOAD, line by line: each line of an
instruction answers, and the next line goes on, or it raises, and the error is entered from the state before
the instruction. Without its operand byte an instruction raises at its first line, which evaluates (`rfl`). -/

namespace Sys2Proof.Machine

variable {w : Nat} {s : StateAt w}

/-! ### One line of an instruction -/

/-- A line that answers: the lines after it decide how the instruction ends (R102). -/
theorem finish_bind_ok {α : Type} {x : Except RunError α} {a : α} (h : x = .ok a) (next : α → Effect w) :
    finish s (x >>= next) = finish s (next a) := by rw [h]; rfl

/-- A line that raises: no line after it runs, and the error is entered from `s` (R101, R102, R192). -/
theorem finish_bind_error {α : Type} {x : Except RunError α} {e : RunError} (h : x = .error e)
    (next : α → Effect w) : finish s (x >>= next) = .next ⟨w, s.faulted e.kind e.info⟩ := by rw [h]; rfl

/-- An operand-bearing instruction goes on from its operand byte. -/
theorem finish_operand_some (k : Byte) (next : Byte → Effect w) :
    finish s (operand (some k) >>= next) = finish s (next k) := finish_bind_ok rfl next

/-! ### NOOP and PUSH -/

/-- Settles O38: the one line of NOOP is the fall-through, whatever the operand field holds. -/
theorem noopRule : Obligations.NoopRule :=
  ⟨formatN_of_lookup rfl rfl, fun _ _ _ => rfl⟩

/-- Settles O39: the operand byte is there or not, and then there is room for its Value or not; the Value is
the zero-extended byte, whose signed reading is the byte's number (`zextByte_toInt`). -/
theorem pushRule : Obligations.PushRule := by
  refine ⟨formatK_of_lookup rfl rfl, fun w s => ⟨fun k hw hroom => ?_, rfl, fun k hfull => ?_⟩⟩
  · exact ⟨zextByte k, zextByte_toInt hw k,
      (finish_operand_some k _).trans (finish_bind_ok (push_ok _ (not_full_iff.2 hroom)) _)⟩
  · exact (finish_operand_some k _).trans (finish_bind_error (push_full _ (full_iff.2 hfull)) _)

/-! ### STORE -/

/-- Settles O40: the operand byte is there or not, and then a Value is on the stack or not; the heap after
the write is `Memory.write`, of which the heap's laws say what it reads and that it is canonical. -/
theorem storeRule : Obligations.StoreRule := by
  refine ⟨formatK_of_lookup rfl rfl, fun w s =>
    ⟨fun k v rest hvs => ?_, rfl, fun k hvs => ?_⟩⟩
  · exact ⟨Memory.write s.heap (heapAddress k) v,
      (finish_operand_some k _).trans (finish_bind_ok (pop_cons hvs) _),
      Memory.read_write_same _ _ _,
      fun a ha => Memory.read_write_other _ _ a _ ha,
      fun hwf => Memory.write_wf hwf _ _ (heapAddress_lt k)⟩
  · exact (finish_operand_some k _).trans (finish_bind_error (pop_nil hvs) _)

/-! ### LOAD -/

/-- A LOAD of a cell never stored raises, with the cell's number as the payload (R46, R113). -/
theorem exec_load_of_read_none {k : Byte} (h : Memory.read s.heap (heapAddress k) = none) :
    exec (.load (some k)) ⟨w, s⟩ =
      .next ⟨w, s.faulted .notFoundAddressInStore (BitVec.ofNat _ k.toNat)⟩ := by
  rw [← zextByte_eq]
  exact (finish_operand_some k _).trans (finish_bind_error (heapRead_none h) _)

/-- A LOAD of a stored cell goes on to push the cell's Value. -/
theorem exec_load_of_read_some {k : Byte} {v : Value w} (h : Memory.read s.heap (heapAddress k) = some v) :
    exec (.load (some k)) ⟨w, s⟩ = finish s (push v s >>= fun t => .ok (fallThrough t)) :=
  (finish_operand_some k _).trans (finish_bind_ok (heapRead_some h) _)

/-- Settles O41: the operand byte is there or not, the cell is stored or not, and then there is room for its
Value or not. An accepted RUN leaves the empty heap, in which no cell is stored. -/
theorem loadRule : Obligations.LoadRule := by
  refine ⟨formatK_of_lookup rfl rfl, fun w s =>
    ⟨fun k v hread hroom => ?_, rfl, fun k hread => exec_load_of_read_none hread,
      fun k v hread hfull => ?_, fun k rest hbusy hvalid hhost => ?_⟩⟩
  · exact (exec_load_of_read_some hread).trans (finish_bind_ok (push_ok _ (not_full_iff.2 hroom)) _)
  · exact (exec_load_of_read_some hread).trans (finish_bind_error (push_full _ (full_iff.2 hfull)) _)
  · have haccepted : accepted .run s = true := by simp [accepted, hbusy, hvalid]
    exact ⟨_, step_accepted hhost haccepted, rfl, exec_load_of_read_none (Memory.read_empty _)⟩

end Sys2Proof.Machine
end

section
/-! O43 to O46 (R121 to R128). ADD, SUB, MUL, DIV and MOD: the quotient rounded toward zero, then the ALU's
results as the library's operations on strings of bits, then the instructions and the laws. -/

namespace Sys2Proof.Machine

variable {w : Nat}

/-! ### The quotient rounded toward zero (R124, R125) -/

/-- `Int.tdiv` is the quotient of R124's words: it is the quotient of the magnitudes, with the product of
the signs where it is not 0. -/
theorem isTruncatedQuotient_tdiv (x : Int) {y : Int} (hy : y ≠ 0) :
    IsTruncatedQuotient x y (x.tdiv y) := by
  have hmagnitude : |x.tdiv y * y| = ((x.natAbs / y.natAbs * y.natAbs : Nat) : Int) := by
    rw [Int.abs_eq_natAbs, Int.natAbs_mul, Int.natAbs_tdiv]; rfl
  rw [IsTruncatedQuotient, hmagnitude, Int.abs_eq_natAbs x, Int.abs_eq_natAbs y]
  refine ⟨?_, ?_, ?_⟩
  · exact_mod_cast Nat.div_mul_le_self _ _
  · exact_mod_cast Nat.lt_div_mul_add (Int.natAbs_pos.2 hy)
  · rw [← Int.sign_nonneg_iff, Int.sign_mul, Int.sign_mul, Int.sign_tdiv]
    split
    · simp
    · exact mul_self_nonneg _

/-- What that quotient leaves is smaller than the divisor. -/
theorem abs_tmod_lt (x : Int) {y : Int} (hy : y ≠ 0) : |x.tmod y| < |y| := by
  rw [Int.abs_eq_natAbs, Int.abs_eq_natAbs, Int.natAbs_tmod]
  exact_mod_cast Nat.mod_lt _ (Int.natAbs_pos.2 hy)

/-- What that quotient leaves is 0 or has the dividend's sign. -/
theorem tmod_eq_zero_or_neg_iff (x y : Int) : x.tmod y = 0 ∨ (x.tmod y < 0 ↔ x < 0) := by
  by_cases hdvd : y ∣ x
  · exact .inl (Int.tmod_eq_zero_of_dvd hdvd)
  · right
    rw [← Int.sign_eq_neg_one_iff_neg, Int.sign_tmod, if_neg hdvd, Int.sign_eq_neg_one_iff_neg]

/-! ### The ALU's results as strings of bits -/

/-- The string of bits with a given signed reading, at every width. -/
theorem eq_wrap_of_toInt_eq {b : BitVec w} {z : Int} (h : b.toInt = z) : b = wrap z := by
  rw [← h, wrap, BitVec.ofInt_toInt]

theorem eq_one_of_toInt {b : BitVec w} (h : b.toInt = 1) : b = 1#w := eq_wrap_of_toInt_eq h

theorem toInt_eq_neg_one_iff (hw : 0 < w) {b : BitVec w} : b.toInt = -1 ↔ b = -1#w := by
  constructor
  · intro h
    rw [eq_wrap_of_toInt_eq h, wrap, BitVec.ofInt_neg]
    rfl
  · rintro rfl
    rw [BitVec.neg_one_eq_allOnes, BitVec.toInt_allOnes, if_pos hw]

theorem toInt_ne_zero {b : BitVec w} (hb : b ≠ 0) : b.toInt ≠ 0 := mt (toInt_eq_zero_iff b).1 hb

namespace Alu

theorem div_eq_sdiv (a b : BitVec w) : div a b = a.sdiv b :=
  BitVec.eq_of_toInt_eq (by rw [div, wrap, BitVec.toInt_ofInt, BitVec.toInt_sdiv])

/-- The remainder needs no wrapping: it is smaller than the divisor. -/
theorem mod_eq_srem (a b : BitVec w) : mod a b = a.srem b := by
  rw [eq_wrap_of_toInt_eq (BitVec.toInt_srem a b), mod, Int.tmod_def, mul_comm]

theorem mod_toInt (a b : BitVec w) : (mod a b).toInt = a.toInt.tmod b.toInt := by
  rw [mod_eq_srem, BitVec.toInt_srem]

/-- The quotient fits but for `MIN / (-1)` (R127). -/
theorem div_toInt {a b : BitVec w} (h : ¬ (a = BitVec.intMin w ∧ b.toInt = -1)) (hw : 0 < w) :
    (div a b).toInt = a.toInt.tdiv b.toInt := by
  rw [toInt_eq_neg_one_iff hw, not_and_or] at h
  rw [div_eq_sdiv, BitVec.toInt_sdiv_of_ne_or_ne a b h]

/-- Quotient times divisor plus remainder is the dividend, of the strings of bits (R125). -/
theorem div_mul_add_mod (a b : BitVec w) : div a b * b + mod a b = a := by
  have hb : b = wrap b.toInt := eq_wrap_of_toInt_eq rfl
  calc div a b * b + mod a b
      = wrap (a.toInt.tdiv b.toInt) * wrap b.toInt +
          wrap (a.toInt - a.toInt.tdiv b.toInt * b.toInt) := by rw [← hb]; rfl
    _ = wrap (a.toInt.tdiv b.toInt * b.toInt + (a.toInt - a.toInt.tdiv b.toInt * b.toInt)) := by
          simp only [wrap, BitVec.ofInt_add, BitVec.ofInt_mul]
    _ = a := by rw [add_sub_cancel, ← eq_wrap_of_toInt_eq rfl]

end Alu

/-! ### The instructions -/

/-- Settles O43: each pushes `wrap` of the exact result (`isWrap_wrap`). -/
theorem addSubMulRule : Obligations.AddSubMulRule :=
  ⟨twoOperand_of_binaryTotal (f := Alu.add) (formatN_of_lookup rfl rfl) (fun _ _ => rfl)
      fun _ _ _ _ => isWrap_wrap _,
    twoOperand_of_binaryTotal (f := Alu.sub) (formatN_of_lookup rfl rfl) (fun _ _ => rfl)
      fun _ _ _ _ => isWrap_wrap _,
    twoOperand_of_binaryTotal (f := Alu.mul) (formatN_of_lookup rfl rfl) (fun _ _ => rfl)
      fun _ _ _ _ => isWrap_wrap _⟩

/-- Settles O44: the quotient is `Int.tdiv` of the signed readings (`isTruncatedQuotient_tdiv`), and each
pushes `wrap` of it or of what it leaves (`isWrap_wrap`). -/
theorem divModRule : Obligations.DivModRule :=
  ⟨twoOperandDivide_of_binaryDivide (f := Alu.div) (formatN_of_lookup rfl rfl) (fun _ _ => rfl)
      fun _ _ _ _ hb => ⟨_, isTruncatedQuotient_tdiv _ (toInt_ne_zero hb), isWrap_wrap _⟩,
    twoOperandDivide_of_binaryDivide (f := Alu.mod) (formatN_of_lookup rfl rfl) (fun _ _ => rfl)
      fun _ _ _ _ hb => ⟨_, isTruncatedQuotient_tdiv _ (toInt_ne_zero hb), isWrap_wrap _⟩⟩

/-! ### The laws (R126, R127) -/

/-- Settles O45: the remainder's signed reading is `Int.tmod` of the operands' (`mod_toInt`), the quotient's
is `Int.tdiv` of them but for `MIN / (-1)` (`div_toInt`). -/
theorem divisionLaws : Obligations.DivisionLaws := by
  intro w a b hw hb
  refine ⟨?_, ?_, (Alu.div_mul_add_mod a b).symm, fun hcorner => ?_, fun hone => ?_⟩
  · rw [Alu.mod_toInt]
    exact abs_tmod_lt _ (toInt_ne_zero hb)
  · rw [Alu.mod_toInt]
    exact tmod_eq_zero_or_neg_iff _ _
  · rw [Alu.mod_toInt, Alu.div_toInt hcorner (by omega), Int.tdiv_mul_add_tmod]
  · constructor
    · rw [Alu.div_eq_sdiv, (toInt_eq_neg_one_iff (by omega)).1 hone, BitVec.intMin_sdiv_neg_one]
    · rw [← toInt_eq_zero_iff, Alu.mod_toInt, hone, Int.tmod_neg, Int.tmod_one]

/-- Settles O46: a result that fits is not changed by `wrap` (`wrap_toInt_of_fits`); at the corners the
operations are those of the strings of bits. -/
theorem wrapLaws : Obligations.WrapLaws := by
  intro w a b hw
  have hpos : 0 < w := by omega
  refine ⟨wrap_toInt_of_fits _ hpos, wrap_toInt_of_fits _ hpos, wrap_toInt_of_fits _ hpos,
    fun hone => ?_, fun hone => ?_⟩
  · rw [eq_one_of_toInt hone, Alu.add_eq, Alu.sub_eq, BitVec.intMax_add_one]
    exact ⟨rfl, by rw [← BitVec.intMax_add_one, BitVec.add_sub_cancel]⟩
  · rw [(toInt_eq_neg_one_iff hpos).1 hone, Alu.mul_eq, BitVec.mul_neg, BitVec.mul_one, BitVec.neg_intMin]

end Sys2Proof.Machine
end

section
/-! O47 to O50 (R136 to R142). AND, OR, XOR, NOT, LSF and RSF: the ALU's results as the library's operations
on strings of bits, whose bits and readings the library gives; then the instructions and the bits of a
shift. -/

namespace Sys2Proof.Machine

variable {w : Nat}

namespace Alu

/-! ### The ALU's results as strings of bits -/

theorem and_getLsbD (a b : BitVec w) (j : Nat) : (and a b).getLsbD j = (a.getLsbD j && b.getLsbD j) :=
  BitVec.getLsbD_and

theorem or_getLsbD (a b : BitVec w) (j : Nat) : (or a b).getLsbD j = (a.getLsbD j || b.getLsbD j) :=
  BitVec.getLsbD_or

theorem xor_getLsbD (a b : BitVec w) (j : Nat) : (xor a b).getLsbD j = (a.getLsbD j ^^ b.getLsbD j) :=
  BitVec.getLsbD_xor

theorem not_getLsbD (a : BitVec w) {j : Nat} (hj : j < w) : (not a).getLsbD j = !a.getLsbD j := by
  rw [not, BitVec.getLsbD_not, decide_eq_true hj, Bool.true_and]

/-- The complement is `wrap(-a - 1)`, in R139's words. -/
theorem not_eq_wrap (a : BitVec w) : not a = wrap (-a.toInt - 1) := by
  rw [not, BitVec.not_eq_neg_add, wrap, Int.sub_eq_add_neg, BitVec.ofInt_add, BitVec.ofInt_neg,
    BitVec.ofInt_neg, BitVec.ofInt_toInt, BitVec.sub_eq_add_neg]
  rfl

/-- That result always fits: the complement mirrors the signed range onto itself. -/
theorem not_toInt (hw : 0 < w) (a : BitVec w) : (not a).toInt = -a.toInt - 1 := by
  have hlow := BitVec.le_toInt a
  have hhigh := BitVec.toInt_lt (x := a)
  rw [not_eq_wrap]
  exact wrap_toInt_of_fits _ hw (by omega) (by omega)

/-- LSF is the left shift by the amount modulo the width (R140, R142). -/
theorem lsf_eq_shiftLeft (a b : BitVec w) : lsf a b = a <<< (b.toNat % w) := by
  apply BitVec.eq_of_toNat_eq
  rw [BitVec.toNat_shiftLeft, Nat.shiftLeft_eq]
  exact_mod_cast wrap_toNat ((a.toNat : Int) * 2 ^ shiftAmount b)

/-- RSF is the sign-copying right shift by the amount modulo the width (R141, R142). -/
theorem rsf_eq_sshiftRight (a b : BitVec w) : rsf a b = a.sshiftRight (b.toNat % w) := by
  rw [rsf, wrap, BitVec.sshiftRight, Int.shiftRight_eq_div_pow, shiftAmount_eq, Nat.cast_pow, Nat.cast_ofNat]

theorem lsf_toNat (a b : BitVec w) : (lsf a b).toNat = a.toNat * 2 ^ (b.toNat % w) % 2 ^ w := by
  rw [lsf_eq_shiftLeft, BitVec.toNat_shiftLeft, Nat.shiftLeft_eq]

/-- The quotient fits at every amount: the floor of R141 needs no wrapping. -/
theorem rsf_toInt (a b : BitVec w) : (rsf a b).toInt = a.toInt / 2 ^ (b.toNat % w) := by
  rw [rsf_eq_sshiftRight, BitVec.toInt_sshiftRight, Int.shiftRight_eq_div_pow, Nat.cast_pow, Nat.cast_ofNat]

end Alu

/-- The low `SHAMT_BITS` bits of an amount are its unsigned reading modulo the width (R142). -/
theorem extractLsb'_shamtBits_toNat (hw : Config.vlenWf w = true) (b : BitVec w) :
    (b.extractLsb' 0 (Config.shamtBits w)).toNat = b.toNat % w := by
  rw [BitVec.extractLsb'_toNat, Nat.shiftRight_zero, two_pow_shamtBits hw]

/-! ### The instructions -/

/-- Settles O47: each is its operation of the library, which works bit by bit. -/
theorem andOrXorRule : Obligations.AndOrXorRule :=
  ⟨twoOperand_of_binaryTotal (f := Alu.and) (formatN_of_lookup rfl rfl) (fun _ _ => rfl)
      fun _ _ => Alu.and_getLsbD,
    twoOperand_of_binaryTotal (f := Alu.or) (formatN_of_lookup rfl rfl) (fun _ _ => rfl)
      fun _ _ => Alu.or_getLsbD,
    twoOperand_of_binaryTotal (f := Alu.xor) (formatN_of_lookup rfl rfl) (fun _ _ => rfl)
      fun _ _ => Alu.xor_getLsbD⟩

/-- Settles O48: a Value is on the stack, and the instruction completes (`exec_of_completed`), or its first
line raises. -/
theorem notRule : Obligations.NotRule := by
  refine ⟨formatN_of_lookup rfl rfl, fun o w s => ⟨fun a rest hw hvs hfits => ?_, fun hvs => ?_⟩⟩
  · have hpos : 0 < w := by have := sixteen_le_of_vlenWf hw; omega
    exact ⟨Alu.not a, fun _ => Alu.not_getLsbD a, Alu.not_toInt hpos a,
      exec_of_completed ⟨a, rest, hvs, rfl⟩ hfits⟩
  · exact finish_bind_error (pop_nil hvs) _

/-- Settles O49: the amount is the one of the bits taken (`extractLsb'_shamtBits_toNat`), and the floor is
`Int`'s quotient by the power of two. -/
theorem shiftRule : Obligations.ShiftRule := by
  refine ⟨twoOperand_of_binaryTotal (f := Alu.lsf) (formatN_of_lookup rfl rfl) (fun _ _ => rfl)
      fun w hw a b => ⟨?_, extractLsb'_shamtBits_toNat hw b⟩,
    twoOperand_of_binaryTotal (f := Alu.rsf) (formatN_of_lookup rfl rfl) (fun _ _ => rfl)
      fun w hw a b => ?_⟩
  · rw [extractLsb'_shamtBits_toNat hw, Alu.lsf_toNat]
  · have hpos : (0 : Int) < 2 ^ (b.toNat % w) := by positivity
    rw [extractLsb'_shamtBits_toNat hw, Alu.rsf_toInt]
    exact ⟨Int.ediv_mul_le _ hpos.ne', Int.lt_ediv_add_one_mul_self _ hpos⟩

/-! ### The bits of a shift -/

/-- Settles O50: bit `j` of either shift of the library, at a place below the width. -/
theorem shiftBits : Obligations.ShiftBits := by
  intro w a b j hj
  constructor
  · rw [Alu.lsf_eq_shiftLeft, BitVec.getLsbD_shiftLeft, decide_eq_true hj, Bool.true_and, ← decide_not]
    simp only [not_lt]
  · rw [Alu.rsf_eq_sshiftRight, BitVec.getLsbD_sshiftRight, decide_eq_false (not_le.2 hj), Bool.not_false,
      Bool.true_and, Nat.add_comm j]

end Sys2Proof.Machine
end

section
/-! O51 and O52 (R150 to R155). EQ, GT, LT, GTE and LTE: each pushes the truth value of a relation of the
signed readings, so the laws between them are those of the relations. -/

namespace Sys2Proof.Machine

variable {w : Nat}

/-! ### The Value a comparison pushes (R150) -/

/-- Negation is `1 -` on truth values, at every width. -/
theorem truthValue_not (p : Bool) : (truthValue (!p) : BitVec w) = 1 - truthValue p := by
  cases p
  · exact (BitVec.sub_zero _).symm
  · exact (BitVec.sub_self _).symm

/-- Conjunction is the bitwise and on truth values, at every width. -/
theorem truthValue_and (p q : Bool) : (truthValue (p && q) : BitVec w) = truthValue p &&& truthValue q := by
  cases p
  · exact BitVec.zero_and.symm
  · cases q
    · exact BitVec.and_zero.symm
    · exact BitVec.and_self.symm

/-- The truth value of a relation is exactly 1 or exactly 0, at every admissible width. -/
theorem truthValue_decide_toInt (hw : Config.vlenWf w = true) (p : Prop) [Decidable p] :
    (truthValue (decide p) : Value w).toInt = if p then 1 else 0 := by
  have hwide : 1 < w := by have := sixteen_le_of_vlenWf hw; omega
  rw [truthValue_toInt hwide]
  simp only [decide_eq_true_eq]

/-! ### The relations between the comparisons -/

namespace Alu

/-- EQ compares the strings of bits, and so the signed readings. -/
theorem eq_eq_truthValue_toInt (a b : BitVec w) : eq a b = truthValue (decide (a.toInt = b.toInt)) := by
  simp only [eq, BitVec.toInt_inj]

theorem gte_eq_one_sub_lt (a b : BitVec w) : gte a b = 1 - lt a b := by
  rw [lt, ← truthValue_not, ← decide_not]
  simp only [gte, ge_iff_le, not_lt]

theorem lte_eq_one_sub_gt (a b : BitVec w) : lte a b = 1 - gt a b := by
  rw [gt, ← truthValue_not, ← decide_not]
  simp only [lte, gt_iff_lt, not_lt]

/-- The order of the signed readings is antisymmetric. -/
theorem eq_eq_gte_and_lte (a b : BitVec w) : eq a b = and (gte a b) (lte a b) := by
  have hrel : a.toInt = b.toInt ↔ a.toInt ≥ b.toInt ∧ a.toInt ≤ b.toInt := by omega
  rw [and, gte, lte, ← truthValue_and, ← Bool.decide_and, eq_eq_truthValue_toInt]
  simp only [hrel]

end Alu

/-! ### The instructions and the laws -/

/-- Settles O51: each pushes the truth value of its relation of the signed readings
(`truthValue_decide_toInt`); for EQ that relation is equality of the strings of bits. -/
theorem compareRule : Obligations.CompareRule := by
  refine ⟨twoOperand_of_binaryTotal (f := Alu.eq) (formatN_of_lookup rfl rfl) (fun _ _ => rfl)
      fun w hw a b => ?_,
    twoOperand_of_binaryTotal (f := Alu.gt) (formatN_of_lookup rfl rfl) (fun _ _ => rfl)
      fun _ hw _ _ => truthValue_decide_toInt hw _,
    twoOperand_of_binaryTotal (f := Alu.lt) (formatN_of_lookup rfl rfl) (fun _ _ => rfl)
      fun _ hw _ _ => truthValue_decide_toInt hw _,
    twoOperand_of_binaryTotal (f := Alu.gte) (formatN_of_lookup rfl rfl) (fun _ _ => rfl)
      fun _ hw _ _ => truthValue_decide_toInt hw _,
    twoOperand_of_binaryTotal (f := Alu.lte) (formatN_of_lookup rfl rfl) (fun _ _ => rfl)
      fun _ hw _ _ => truthValue_decide_toInt hw _⟩
  rw [Alu.eq_eq_truthValue_toInt]
  exact truthValue_decide_toInt hw _

/-- Settles O52: LT and GT are the negations of GTE and LTE, and GTE and LTE together are equality. -/
theorem compareLaws : Obligations.CompareLaws := fun _ a b =>
  ⟨Alu.gte_eq_one_sub_lt a b, Alu.lte_eq_one_sub_gt a b, Alu.eq_eq_gte_and_lte a b⟩

end Sys2Proof.Machine
end

section
/-! O53 to O58 (R160 to R166). PROC, CALL, RET, JMP and JIF, line by line as in the section of O38 to O41; the
operand byte's Value as a pointer is the byte's number (`toPointer_zextByte`). CALL and RET are stated as
lemmas on their own, since the round trip through a frame (O58) is one after the other. -/

namespace Sys2Proof.Machine

variable {w : Nat} {s : StateAt w}

/-! ### JIF -/

/-- With two Values JIF pops both, and the test of the first chooses between the second Value's own bits and
the next index (R164). -/
theorem exec_jif_of_two (o : Operand) {c target : Value w} {rest : List (Value w)}
    (h : s.vs = c :: target :: rest) :
    exec (.jif o) ⟨w, s⟩ =
      .next ⟨w, { s with vs := rest, ip := if c.toInt = 0 then target else s.ip + 1 }⟩ := by
  refine ((finish_bind_ok (pop_cons h) _).trans (finish_bind_ok (pop_cons rfl) _)).trans ?_
  simp only [toInt_eq_zero_iff, ← ite_conditionIsZero]
  cases conditionIsZero c <;> rfl

/-- With fewer than two Values one of JIF's two pops raises. -/
theorem exec_jif_short (o : Operand) (h : s.vs.length < 2) :
    exec (.jif o) ⟨w, s⟩ = .next ⟨w, s.faulted .emptyStack 0⟩ := by
  match hvs : s.vs with
  | [] => exact finish_bind_error (pop_nil hvs) _
  | [_] => exact (finish_bind_ok (pop_cons hvs) _).trans (finish_bind_error (pop_nil rfl) _)
  | _ :: _ :: _ => simp [hvs] at h

/-- Settles O57: two Values are there or not, and then the condition is 0 or not. -/
theorem jifRule : Obligations.JifRule := by
  refine ⟨formatK_of_lookup rfl rfl, fun o w s =>
    ⟨fun c t rest hvs hc => ⟨t, rfl, ?_⟩, fun c t rest hvs hc => ?_, exec_jif_short o⟩⟩
  · rw [exec_jif_of_two o hvs, if_pos hc]
  · rw [exec_jif_of_two o hvs, if_neg hc]

/-! ### PROC and JMP -/

/-- Settles O53: the operand byte is there or not, and either way PROC evaluates. -/
theorem procRule : Obligations.ProcRule := by
  refine ⟨formatK_of_lookup rfl rfl, fun w s => ⟨fun n => ?_, rfl⟩⟩
  rw [← toPointer_zextByte]
  rfl

/-- Settles O56: the operand byte is there or not, and either way JMP evaluates. -/
theorem jmpRule : Obligations.JmpRule := by
  refine ⟨formatK_of_lookup rfl rfl, fun w s => ⟨fun n => ?_, rfl⟩⟩
  rw [← toPointer_zextByte]
  rfl

/-! ### CALL and RET -/

/-- With room for a frame, CALL pushes the next index and goes one past the index it names (R161). -/
theorem exec_call_of_room (n : Byte) (hroom : s.params.csDepth ≠ some s.csp) :
    exec (.call (some n)) ⟨w, s⟩ =
      .next ⟨w, { s with cs := (s.ip + 1) :: s.cs, ip := BitVec.ofNat _ (n.toNat + 1) }⟩ := by
  rw [← toPointer_zextByte_succ]
  exact (finish_operand_some n _).trans (finish_bind_ok (csPush_ok _ (not_full_iff.2 hroom)) _)

/-- With a frame, RET removes it and goes to its pointer (R162). -/
theorem exec_ret_of_frame (o : Operand) {p : Pointer w} {rest : List (Pointer w)} (h : s.cs = p :: rest) :
    exec (.ret o) ⟨w, s⟩ = .next ⟨w, { s with cs := rest, ip := p }⟩ :=
  finish_bind_ok (csPop_cons h) _

/-- Settles O54: the operand byte is there or not, and then there is room for the frame or not. -/
theorem callRule : Obligations.CallRule :=
  ⟨formatK_of_lookup rfl rfl, fun _ _ => ⟨exec_call_of_room, rfl, fun n hfull =>
    (finish_operand_some n _).trans (finish_bind_error (csPush_full _ (full_iff.2 hfull)) _)⟩⟩

/-- Settles O55: a frame is there or not. -/
theorem retRule : Obligations.RetRule :=
  ⟨formatN_of_lookup rfl rfl, fun o _ _ =>
    ⟨fun _ _ => exec_ret_of_frame o, fun hcs => finish_bind_error (csPop_nil hcs) _⟩⟩

/-- Settles O58: the frame RET finds is the one CALL pushed, the index after the CALL. -/
theorem callThenRet : Obligations.CallThenRet := fun _ _ n o hroom =>
  ⟨_, exec_call_of_room n hroom, rfl, fun _ hcs => exec_ret_of_frame o hcs⟩

end Sys2Proof.Machine
end

section
/-! O59 and O60 (R175, R176). DBG and EXIT, line by line as in the section of O38 to O41. -/

namespace Sys2Proof.Machine

/-- Settles O59: a Value is on the stack, and DBG's lines after its pop evaluate, or that pop raises. -/
theorem dbgRule : Obligations.DbgRule :=
  ⟨formatK_of_lookup rfl rfl, fun _ _ _ =>
    ⟨fun _ _ hvs => finish_bind_ok (pop_cons hvs) _, fun hvs => finish_bind_error (pop_nil hvs) _⟩⟩

/-- Settles O60: EXIT is the one update `halt`, with nothing that could raise before it. -/
theorem exitRule : Obligations.ExitRule :=
  ⟨formatN_of_lookup rfl rfl, fun _ _ _ => rfl⟩

end Sys2Proof.Machine
end

section
/-! O28 and O29 (R101, R102, R180, R183 to R192). The error matrix: each instruction by the rows of what it
may find, where either the first cause that holds is the one its lines raise, or none holds and it
completes. -/

namespace Sys2Proof.Machine

variable {w : Nat} {s t : StateAt w} {i : Instr}

/-- The instruction raises the first error of its row of the matrix whose cause holds, or no cause holds and
it can complete. -/
def MatrixHolds (i : Instr) (s : StateAt w) : Prop :=
  (∃ k, firstError i s = some k ∧ exec i ⟨w, s⟩ = .next ⟨w, s.faulted k (errorPayload i k)⟩) ∨
  (firstError i s = none ∧ ∃ t, Completed i s t)

/-! ### The rows of the matrix that several instructions share -/

/-- A row with `EmptyStack` alone, on a stack with too few Values. -/
theorem firstError_emptyStack (hrow : errorTests i = [.emptyStack]) (h : s.vs.length < valuesNeeded i) :
    firstError i s = some .emptyStack := by
  simp [firstError, hrow, errorCause, StateAt.vsp, h]

/-- A row with `EmptyStack` alone, on a stack with Values enough. -/
theorem firstError_none_of_values (hrow : errorTests i = [.emptyStack])
    (h : valuesNeeded i ≤ s.vs.length) : firstError i s = none := by
  simp [firstError, hrow, errorCause, StateAt.vsp, Nat.not_lt.2 h]

/-- The row of a two-operand instruction whose operation raises nothing (R120, R129). -/
theorem matrixHolds_of_binaryTotal {f : Value w → Value w → Value w} (hrow : errorTests i = [.emptyStack])
    (hneeds : valuesNeeded i = 2) (hx : exec i ⟨w, s⟩ = finish s (binaryTotal f s))
    (hc : ∀ t, CompletedTwo f s t → Completed i s t) : MatrixHolds i s := by
  match hvs : s.vs with
  | b :: a :: rest =>
    exact .inr ⟨firstError_none_of_values hrow (by simp [hvs, hneeds]), _, hc _ ⟨a, b, rest, hvs, rfl⟩⟩
  | [] | [_] =>
    have hshort : s.vs.length < 2 := by simp [hvs]
    refine .inl ⟨.emptyStack, firstError_emptyStack hrow (hneeds ▸ hshort), ?_⟩
    rw [hx, binaryTotal, binary_short hshort]
    rfl

/-- The row of a two-operand instruction that raises at divisor 0, after both pops (R128). -/
theorem matrixHolds_of_binaryDivide {f : Value w → Value w → Value w}
    (hrow : errorTests i = [.emptyStack, .divideByZero]) (hneeds : valuesNeeded i = 2)
    (hx : exec i ⟨w, s⟩ = finish s (binaryDivide f s))
    (hc : ∀ t, CompletedTwo f s t ∧ (∀ b, s.vs.head? = some b → Alu.divisorIsZero b = false) →
      Completed i s t) : MatrixHolds i s := by
  match hvs : s.vs with
  | b :: a :: rest =>
    by_cases hb : b.toInt = 0
    · refine .inl ⟨.divideByZero, by simp [firstError, hrow, errorCause, StateAt.vsp, hvs, hneeds, hb], ?_⟩
      rw [hx, binaryDivide, binary_raises hvs (e := .divideByZero) (by simp [Alu.divisorIsZero, hb])]
      rfl
    · exact .inr ⟨by simp [firstError, hrow, errorCause, StateAt.vsp, hvs, hneeds, hb], _,
        hc _ ⟨⟨a, b, rest, hvs, rfl⟩, by simp [hvs, Alu.divisorIsZero, hb]⟩⟩
  | [] | [_] =>
    have hshort : s.vs.length < 2 := by simp [hvs]
    refine .inl ⟨.emptyStack, by simp [firstError, hrow, errorCause, StateAt.vsp, hvs, hneeds], ?_⟩
    rw [hx, binaryDivide, binary_short hshort]
    rfl

/-! ### The instructions that take their operand byte first -/

theorem push_matrixHolds (o : Operand) : MatrixHolds (.push o) s := by
  cases o with
  | none => exact .inl ⟨_, rfl, rfl⟩
  | some k =>
    cases hfull : Config.full s.params.vsDepth s.vsp with
    | true =>
      exact .inl ⟨.stackOverflow, by simp [firstError, errorTests, errorCause, Instr.operand, full_iff.1 hfull],
        (finish_operand_some k _).trans (finish_bind_error (push_full _ hfull) _)⟩
    | false =>
      exact .inr ⟨by simp [firstError, errorTests, errorCause, Instr.operand, not_full_iff.1 hfull],
        _, k, rfl, hfull, rfl⟩

theorem store_matrixHolds (o : Operand) : MatrixHolds (.store o) s := by
  cases o with
  | none => exact .inl ⟨_, rfl, rfl⟩
  | some k =>
    cases hvs : s.vs with
    | nil =>
      exact .inl ⟨.emptyStack,
        by simp [firstError, errorTests, errorCause, Instr.operand, StateAt.vsp, hvs, valuesNeeded],
        (finish_operand_some k _).trans (finish_bind_error (pop_nil hvs) _)⟩
    | cons v rest =>
      exact .inr ⟨by simp [firstError, errorTests, errorCause, Instr.operand, StateAt.vsp, hvs, valuesNeeded],
        _, k, v, rest, rfl, hvs, rfl⟩

theorem load_matrixHolds (o : Operand) : MatrixHolds (.load o) s := by
  cases o with
  | none => exact .inl ⟨_, rfl, rfl⟩
  | some k =>
    cases hread : Memory.read s.heap k.toNat with
    | none =>
      exact .inl ⟨.notFoundAddressInStore,
        by simp [firstError, errorTests, errorCause, Instr.operand, hread], exec_load_of_read_none hread⟩
    | some v =>
      cases hfull : Config.full s.params.vsDepth s.vsp with
      | true =>
        exact .inl ⟨.stackOverflow,
          by simp [firstError, errorTests, errorCause, Instr.operand, hread, full_iff.1 hfull],
          (exec_load_of_read_some hread).trans (finish_bind_error (push_full _ hfull) _)⟩
      | false =>
        exact .inr ⟨by simp [firstError, errorTests, errorCause, Instr.operand, hread, not_full_iff.1 hfull],
          _, k, v, rfl, hread, hfull, rfl⟩

theorem call_matrixHolds (o : Operand) : MatrixHolds (.call o) s := by
  cases o with
  | none => exact .inl ⟨_, rfl, rfl⟩
  | some k =>
    cases hfull : Config.full s.params.csDepth s.csp with
    | true =>
      exact .inl ⟨.callStackOverflow,
        by simp [firstError, errorTests, errorCause, Instr.operand, full_iff.1 hfull],
        (finish_operand_some k _).trans (finish_bind_error (csPush_full _ hfull) _)⟩
    | false =>
      exact .inr ⟨by simp [firstError, errorTests, errorCause, Instr.operand, not_full_iff.1 hfull],
        _, k, rfl, hfull, rfl⟩

/-! ### The instructions that pop first -/

/-- The row of an instruction whose first line pops its one Value. -/
theorem matrixHolds_of_pop {next : Value w × StateAt w → Effect w} (hrow : errorTests i = [.emptyStack])
    (hneeds : valuesNeeded i = 1) (hx : exec i ⟨w, s⟩ = finish s (pop s >>= next))
    (hc : ∀ v rest, s.vs = v :: rest → ∃ t, Completed i s t) : MatrixHolds i s := by
  cases hvs : s.vs with
  | nil =>
    exact .inl ⟨.emptyStack, firstError_emptyStack hrow (by simp [hvs, hneeds]),
      hx.trans (finish_bind_error (pop_nil hvs) _)⟩
  | cons v rest => exact .inr ⟨firstError_none_of_values hrow (by simp [hvs, hneeds]), hc v rest hvs⟩

theorem jif_matrixHolds (o : Operand) : MatrixHolds (.jif o) s := by
  match hvs : s.vs with
  | c :: p :: rest =>
    exact .inr ⟨firstError_none_of_values rfl (by simp [hvs, valuesNeeded]), _, c, p, rest, hvs, rfl⟩
  | [] | [_] =>
    have hshort : s.vs.length < 2 := by simp [hvs]
    exact .inl ⟨.emptyStack, firstError_emptyStack rfl hshort, exec_jif_short o hshort⟩

theorem ret_matrixHolds (o : Operand) : MatrixHolds (.ret o) s := by
  cases hcs : s.cs with
  | nil =>
    exact .inl ⟨.emptyCallStack, by simp [firstError, errorTests, errorCause, StateAt.csp, hcs],
      finish_bind_error (csPop_nil hcs) _⟩
  | cons p rest =>
    exact .inr ⟨by simp [firstError, errorTests, errorCause, StateAt.csp, hcs], _, p, rest, hcs, rfl⟩

/-! ### The whole matrix -/

/-- Every instruction, whatever it finds. -/
theorem matrixHolds (i : Instr) (s : StateAt w) : MatrixHolds i s := by
  cases i with
  | noop _ | exit _ => exact .inr ⟨rfl, _, rfl⟩
  | proc o | jmp o =>
    cases o with
    | none => exact .inl ⟨_, rfl, rfl⟩
    | some k => exact .inr ⟨rfl, _, k, rfl, rfl⟩
  | push o => exact push_matrixHolds o
  | store o => exact store_matrixHolds o
  | load o => exact load_matrixHolds o
  | call o => exact call_matrixHolds o
  | add _ | sub _ | mul _ | and _ | or _ | xor _ | lsf _ | rsf _ | eq _ | gt _ | lt _ | gte _ | lte _ =>
    exact matrixHolds_of_binaryTotal rfl rfl rfl fun _ h => h
  | div _ | mod _ => exact matrixHolds_of_binaryDivide rfl rfl rfl fun _ h => h
  | not _ | dbg _ => exact matrixHolds_of_pop rfl rfl rfl fun v rest hvs => ⟨_, v, rest, hvs, rfl⟩
  | jif o => exact jif_matrixHolds o
  | ret o => exact ret_matrixHolds o

/-- An instruction that completes on a running machine leaves it running, or is EXIT and ends the run. -/
theorem completed_status (h : Completed i s t) (hr : s.status = .running) :
    (∃ o, i = .exit o) ∧ t.status = .done ∨ (∀ o, i ≠ .exit o) ∧ t.status = .running := by
  by_cases hexit : ∃ o, i = .exit o
  · obtain ⟨o, rfl⟩ := hexit
    cases h
    exact .inl ⟨⟨o, rfl⟩, rfl⟩
  · have hne : ∀ o, i ≠ .exit o := fun o ho => hexit ⟨o, ho⟩
    exact .inr ⟨hne, ((completed_frame h).status hne).trans hr⟩

theorem completed_not_fault (h : Completed i s t) (hr : s.status = .running) : t.status ≠ .fault := by
  rcases completed_status h hr with ⟨_, ht⟩ | ⟨_, ht⟩ <;> simp [ht]

/-- Settles O28: where no cause holds the instruction can complete, and what can complete does
(`exec_of_completed`). -/
theorem errorMatrix : Obligations.ErrorMatrix := by
  intro i w s hfits hr
  rcases matrixHolds i s with ⟨k, hfirst, hx⟩ | ⟨hfirst, t, hc⟩ <;> rw [hfirst]
  · exact ⟨fun _ hk => Option.some.inj hk ▸ hx, nofun⟩
  · exact ⟨nofun, fun _ =>
      ⟨t, exec_of_completed hc hfits, completed_not_fault hc hr, (completed_frame hc).errors.1⟩⟩

/-- Only an address not found has a payload (R180). -/
theorem RunError.info_eq_zero (e : RunError) (h : e.kind ≠ .notFoundAddressInStore) :
    (e.info : Value w) = 0 := by
  cases e with
  | notFoundAddressInStore _ => exact absurd rfl h
  | emptyStack | emptyOperand | emptyCallStack | divideByZero | stackOverflow | callStackOverflow => rfl

/-- Settles O29: an instruction that ends in `Fault` raised, since completing does not lead there. -/
theorem runtimeErrorEntry : Obligations.RuntimeErrorEntry := by
  intro i w s t hr hx ht
  rcases exec_cases hx with ⟨e, rfl⟩ | hc
  · exact ⟨e.kind, e.info, rfl, e.kind_isDecodeTime, e.info_eq_zero⟩
  · exact absurd ht (completed_not_fault hc hr)

end Sys2Proof.Machine
end

section
/-! O16, O21, O22, O24 and O25 (R210, R212, R213, R216 to R218). Reset and the commands, each an event whose
effect `hostEvent` is: accepted, or ignored. -/

namespace Sys2Proof.Machine

/-- Settles O16: reset is the initial state, with the two fields that are the model's own. -/
theorem resetEffect : Obligations.ResetEffect := fun _ _ _ hhost => step_event hhost

/-- Settles O21: a busy machine accepts no command (`accepted_of_busy`). -/
theorem busyIgnoresCommands : Obligations.BusyIgnoresCommands := by
  intro w s c rest hst hhost
  have hbusy : s.busy = true := by
    rcases hst with h | h <;> simp [StateAt.busy, h]
  exact step_ignored hhost (accepted_of_busy hbusy)

/-- On a machine that is not busy, RUN is accepted with a valid sequence (R212). -/
theorem accepted_run {w : Nat} {s : StateAt w} (hbusy : s.busy = false) :
    accepted .run s = s.imemValid := by simp [accepted, hbusy]

/-- Settles O22: on a machine that is not busy, `IMEM_VALID` alone decides whether RUN is accepted. -/
theorem runCommand : Obligations.RunCommand := by
  intro w s rest hbusy hhost
  exact ⟨fun hvalid => step_accepted hhost ((accepted_run hbusy).trans hvalid),
    fun hvalid => step_ignored hhost ((accepted_run hbusy).trans hvalid)⟩

/-- Settles O24: a program within `PROG_MAX` is accepted. -/
theorem loadProgramCommand : Obligations.LoadProgramCommand := fun _ _ _ _ hbusy hfits hhost =>
  step_accepted hhost (by simp [accepted, hbusy, hfits])

/-- Settles O25: a sequence within `IMEM_DEPTH` is accepted by a machine that has the command. -/
theorem loadImemCommand : Obligations.LoadImemCommand := fun _ _ _ _ hbusy hhas hfits hhost =>
  step_accepted hhost (by simp [accepted, hbusy, hhas, hfits])

end Sys2Proof.Machine
end

section
/-! O12 and O13 (R94, R200, R202), then O14 and O15 (R212 to R214). What a step is in every state: that it
answers, and which transition of `STATUS` it makes, for the machine's own step and for an event. -/

namespace Sys2Proof.Machine

variable {w : Nat} {s t : StateAt w} {i : Instr}

/-! ### Every step answers -/

/-- Settles O12: the machine's own step does nothing when it is not busy. -/
theorem stepWaits : Obligations.StepWaits := by
  intro w s hq hbusy
  rw [step_quiet hq, machineStep_waiting (s := s.tick) hbusy]

theorem exec_params (hx : exec i ⟨w, s⟩ = .next ⟨w, t⟩) : t.params = s.params := by
  rcases exec_cases hx with ⟨e, rfl⟩ | hc
  · rfl
  · obtain ⟨_, _, _, _, hparams, _⟩ := completed_sameProgram hc
    exact hparams

theorem decodeStep_params (s : StateAt w) : (decodeStep s).params = s.params := by
  rcases decodeStep_cases s with ⟨_, h⟩ | ⟨kind, info, _, h⟩ | ⟨i, rest, _, _, h⟩ <;> rw [h]
  rfl

theorem hostEvent_params (e : HostEvent) (s : StateAt w) : (hostEvent e s).params = s.params := by
  cases e with
  | reset => rfl
  | command c =>
    dsimp only [hostEvent]
    split
    · cases c <;> rfl
    · rfl

/-- The machine's own step answers in every state, and keeps the parameters. -/
theorem machineStep_next (s : StateAt w) :
    ∃ t : StateAt w, machineStep s = .next ⟨w, t⟩ ∧ t.params = s.params := by
  cases hst : s.status with
  | decoding => exact ⟨_, machineStep_decoding hst, decodeStep_params s⟩
  | running =>
    rw [machineStep_running hst]
    rcases execStep_cases s with ⟨_, h⟩ | ⟨i, _, _, h⟩
    · exact ⟨_, h, rfl⟩
    · obtain ⟨t, ht⟩ := exec_next i s
      exact ⟨t, h.trans ht, exec_params ht⟩
  | idle | ready | done | fault => exact ⟨s, machineStep_waiting (by simp [StateAt.busy, hst]), rfl⟩

/-- Settles O13: the machine's own step answers by `machineStep_next`, an event by `step_event`. -/
theorem stepAlwaysAnswers : Obligations.StepAlwaysAnswers := by
  intro w s
  rcases quiet_or_event s with hq | ⟨e, rest, he⟩
  · rw [step_quiet hq]
    exact machineStep_next s.tick
  · exact ⟨_, step_event he, hostEvent_params e { s with host := rest }⟩

/-! ### The transitions of the machine's own step -/

/-- A decoder step ends at `PLEN`; before it, it decodes one more instruction or fails (R70). -/
theorem decodeStep_transition (hd : s.status = .decoding) (hpos : s.dpos ≤ s.plen) :
    (s.dpos = s.plen ∧ (decodeStep s).status = .ready ∧ (decodeStep s).imemValid = true) ∨
    (s.dpos < s.plen ∧ (decodeStep s).status = .decoding ∧ (decodeStep s).ilen = s.ilen + 1 ∧
      s.dpos < (decodeStep s).dpos) ∨
    (s.dpos < s.plen ∧ (decodeStep s).status = .fault ∧ (decodeStep s).imemValid = false) := by
  rcases hpos.eq_or_lt with hend | hlt
  · rw [decodeStep_end hend.ge]
    exact .inl ⟨hend, rfl, rfl⟩
  · rcases decodeStep_cases s with ⟨hend, _⟩ | ⟨kind, info, _, h⟩ | ⟨i, rest, _, _, h⟩
    · exact absurd (List.drop_eq_nil_iff.1 (decode_endOfProgram_iff.1 hend)) (Nat.not_le.2 hlt)
    · rw [h]
      exact .inr (.inr ⟨hlt, rfl, rfl⟩)
    · rw [h]
      exact .inr (.inl ⟨hlt, hd, by simp [StateAt.ilen], by simp⟩)

/-- A running machine runs past the end, or its instruction ends the run, completes or raises the first
error of the matrix (R92, R93, R191). -/
theorem execStep_transition (hfits : s.vsFits) (hr : s.status = .running)
    (hx : execStep s = .next ⟨w, t⟩) :
    (s.ilen ≤ s.ip.toNat ∧ t.status = .done) ∨
    (∃ o, s.imem[s.ip.toNat]? = some (.exit o) ∧ t.status = .done) ∨
    (∃ i, s.imem[s.ip.toNat]? = some i ∧ (∀ o, i ≠ .exit o) ∧ firstError i s = none ∧
      t.status = .running) ∨
    (∃ i k, s.imem[s.ip.toNat]? = some i ∧ firstError i s = some k ∧ t.status = .fault ∧
      t.errKind = some k ∧ t.errIp = s.ip) := by
  rcases execStep_cases s with ⟨hend, h⟩ | ⟨i, _, hi, h⟩
  · cases h.symm.trans hx
    exact .inl ⟨hend, rfl⟩
  · rcases matrixHolds i s with ⟨k, hfirst, hk⟩ | ⟨hfirst, u, hc⟩
    · cases (h.trans hk).symm.trans hx
      exact .inr (.inr (.inr ⟨i, k, hi, hfirst, rfl, rfl, rfl⟩))
    · cases (h.trans (exec_of_completed hc hfits)).symm.trans hx
      rcases completed_status hc hr with ⟨⟨o, rfl⟩, ht⟩ | ⟨hne, ht⟩
      · exact .inr (.inl ⟨o, hi, ht⟩)
      · exact .inr (.inr (.inl ⟨i, hi, hne, hfirst, ht⟩))

/-- Settles O14: by `STATUS`, a step of the decoder, of the engine, or none. -/
theorem ownStepTransitions : Obligations.OwnStepTransitions := by
  intro w s t hs hq hx
  rw [step_quiet hq] at hx
  cases hst : s.status with
  | decoding =>
    obtain ⟨hpos, _⟩ := hs.decoding_scanned hst
    rw [machineStep_decoding (s := s.tick) hst] at hx
    cases hx
    exact .inr (.inl ⟨rfl, decodeStep_transition (s := s.tick) hst hpos⟩)
  | running =>
    rw [machineStep_running (s := s.tick) hst] at hx
    exact .inr (.inr ⟨rfl, execStep_transition (s := s.tick) hs.vs_fits hst hx⟩)
  | idle | ready | done | fault =>
    have hbusy : s.busy = false := by simp [StateAt.busy, hst]
    cases (machineStep_waiting (s := s.tick) hbusy).symm.trans hx
    exact .inl ⟨hbusy, rfl⟩

/-! ### The transitions of an event -/

theorem tick_of_cons {x : HostSlot} {rest : List HostSlot} (h : s.host = x :: rest) :
    s.tick = { s with host := rest } := by
  simp only [StateAt.tick, h, List.tail_cons]

/-- A command is accepted and has its whole effect, or it is ignored (R212). -/
theorem step_command_cases {c : HostCommand} {rest : List HostSlot}
    (hhost : s.host = .event (.command c) :: rest) (hx : step ⟨w, s⟩ = .next ⟨w, t⟩) :
    (accepted c s = true ∧ t = commandEffect c s.tick) ∨ (accepted c s = false ∧ t = s.tick) := by
  rw [tick_of_cons hhost]
  cases ha : accepted c s with
  | true => cases (step_accepted hhost ha).symm.trans hx; exact .inl ⟨rfl, rfl⟩
  | false => cases (step_ignored hhost ha).symm.trans hx; exact .inr ⟨rfl, rfl⟩

/-- Settles O15: a reset, or a command that is accepted or ignored (`step_command_cases`); a busy machine
ignores every one, and a machine that is not busy accepts DECODE always and RUN by `IMEM_VALID`, which is 0 in
`Idle`. -/
theorem eventTransitions : Obligations.EventTransitions := by
  intro w s t e rest hs hhost hx
  cases e with
  | reset =>
    cases (resetEffect w s rest hhost).symm.trans hx
    exact .inl ⟨rfl, rfl⟩
  | command c =>
    have hcases := step_command_cases hhost hx
    cases hbusy : s.busy with
    | true =>
      simp only [accepted_of_busy hbusy, Bool.false_eq_true, false_and, true_and, false_or] at hcases
      exact .inr (.inl ⟨rfl, nofun, hcases⟩)
    | false =>
      refine .inr (.inr ⟨rfl, ?_⟩)
      cases c with
      | loadProgram bytes =>
        rcases hcases with ⟨_, rfl⟩ | ⟨_, rfl⟩ <;> exact .inl ⟨bytes, rfl, rfl⟩
      | decode =>
        rcases hcases with ⟨_, rfl⟩ | ⟨ha, _⟩
        · exact .inr (.inl ⟨rfl, rfl⟩)
        · simp [accepted, hbusy] at ha
      | loadImem l =>
        refine .inr (.inr (.inl ⟨l, rfl, ?_⟩))
        rcases hcases with ⟨_, rfl⟩ | ⟨_, ht⟩
        · exact .inl rfl
        · exact .inr ht
      | run =>
        rw [accepted_run hbusy] at hcases
        rcases hcases with ⟨hvalid, rfl⟩ | ⟨hvalid, ht⟩
        · have hidle : s.status ≠ .idle := fun h => nomatch (hs.idle_invalid h).symm.trans hvalid
          exact .inr (.inr (.inr (.inl ⟨rfl, hvalid, hidle, rfl⟩)))
        · exact .inr (.inr (.inr (.inr ⟨rfl, hvalid, ht⟩)))

end Sys2Proof.Machine
end
